-- ==== Sys2Proof/Word.lean ====
section
/-! DEFINITION. The words of the FXU: the widths that spec/10_state.md and spec/30_encoding.md fix. -/

namespace Sys2Proof

/-- A Scalar, an operand field or a result: 32 bits, bit 31 the sign (R13, R20, R21). -/
abbrev Word := BitVec 32

/-- Five flag bits in the one layout of R27: bit 0 OVF, 1 UNF, 2 DZ, 3 INV, 4 ILL. -/
abbrev FlagSet := BitVec 5

/-- The 68-bit request word: `op[67:64]`, `a[63:32]`, `b[31:0]` (R60). -/
abbrev RequestWord := BitVec 68

/-- The 37-bit response word: `flags[36:32]`, `result[31:0]` (R62). -/
abbrev ResponseWord := BitVec 37

end Sys2Proof
end

