-- ==== Sys2Proof/Syntax.lean ====
section
/-! DEFINITION. The operations of the FXU (one constructor for each of the sixteen rows of
spec/opcode_table.json, R64), with the operand bits that each reads (R61), and the lines of the
assembler language of R70 to R72. -/

namespace Sys2Proof

/-- One request, decoded. A constructor carries exactly the operand bits its format reads (R61): B both
operands, U the first, M the five mask bits, N nothing. -/
inductive Instr where
  /-- opcode `0x0`, reserved (R66) -/
  | illegal0
  /-- opcode `0x1` (R80) -/
  | mul (a b : Word)
  /-- opcode `0x2` (R90) -/
  | recip (a : Word)
  /-- opcode `0x3` (R100) -/
  | sqrt (a : Word)
  /-- opcode `0x4` (R111) -/
  | floor (a : Word)
  /-- opcode `0x5` (R113) -/
  | ceil (a : Word)
  /-- opcode `0x6` (R117) -/
  | trunc (a : Word)
  /-- opcode `0x7`, reserved (R66) -/
  | illegal7
  /-- opcode `0x8`, reserved (R66) -/
  | illegal8
  /-- opcode `0x9`, reserved (R66) -/
  | illegal9
  /-- opcode `0xA`, reserved (R66) -/
  | illegalA
  /-- opcode `0xB`, reserved (R66) -/
  | illegalB
  /-- opcode `0xC` (R127) -/
  | rdst
  /-- opcode `0xD` (R128) -/
  | clrst (m : FlagSet)
  /-- opcode `0xE` (R129) -/
  | rdcfg
  /-- opcode `0xF`, reserved (R66) -/
  | illegalF
  deriving DecidableEq, Repr

/-- A Scalar operand of an assembly line (R71). -/
inductive Literal where
  /-- a 32-bit hexadecimal word, "used as it stands whatever the radix" -/
  | hex (w : Word)
  /-- a decimal real: the digits with the point removed, and how many of them stood after the point -/
  | real (negative : Bool) (digits decimals : Nat)
  deriving DecidableEq, Repr

/-- The five flag names an assembly mask may use (R27, R71). -/
inductive FlagName where
  | ovf | unf | dz | inv | ill
  deriving DecidableEq, Repr

/-- The mask operand of `clrst` (R71): a number from 0 to 31, or flag names joined by `|`. -/
inductive MaskOperand where
  | number (n : Nat)
  | flags (first : FlagName) (more : List FlagName)
  deriving DecidableEq, Repr

/-- One line of assembly (R70), with the two pseudo-instructions (R72) and the spelling of a reserved
opcode (R70, R131). -/
inductive AsmLine where
  | mul (a b : Literal)
  | recip (a : Literal)
  | sqrt (a : Literal)
  | floor (a : Literal)
  | ceil (a : Literal)
  | trunc (a : Literal)
  | rdst
  | clrst (m : MaskOperand)
  | rdcfg
  | sqr (a : Literal)
  | clrall
  | illegal (op : BitVec 4)
  deriving DecidableEq, Repr

end Sys2Proof
end

