-- ==== Sys2Proof/Config.lean ====
section
/-! DEFINITION. What the builder of a unit fixes: the two parameters a rule reads, RADIX (R8) and
ASSERT_MASK (R10). LAT (R11) is read by no rule and is left out (log entry 2). -/

namespace Sys2Proof

/-- `RADIX`, the number of fraction bits: "Legal values are 16 and 12 and no others" (R8). -/
inductive Radix where
  | r16
  | r12
  deriving DecidableEq, Repr

/-- `F` of the formulas (R8). -/
def Radix.bits : Radix → Nat
  | .r16 => 16
  | .r12 => 12

/-- The build parameters, fixed for the life of the unit (R8, R10, R12, R36). -/
structure Build where
  /-- R8 -/
  radix : Radix
  /-- R10: a bit that is 1 makes the matching flag stop the unit. -/
  assertMask : FlagSet
  deriving DecidableEq, Repr

/-- The build of `State.reset`: radix 16, the document's optimized build. Both parameters are OPEN in
the spec (R8, R10). DESIGN CHOICE, unsafe for a claim about `State.reset` alone (log entry 1). -/
def Config.resetBuild : Build := { radix := .r16, assertMask := 0#5 }

end Sys2Proof
end

