-- ==== Sys2Proof/WellFormed.lean ====
section
/-! DEFINITION. What makes a term well formed. A decoded request always is: R80, R90, R100 and R23 make
every operand value legal, and the fields are exactly the bits read. A number offered as a request word
and a line of assembly can be ill formed. -/

namespace Sys2Proof

/-- Every decoded request is legal with every operand value: "All `2^64` operand pairs are legal" (R80),
"All `2^32` values of `x` are legal" (R90, R100), `MINPAT` among them (R23), and a reserved opcode is
executed (R67). No check remains to be made on the decoded form. -/
def Instr.wellFormed : Instr → Bool
  | .illegal0 => true
  | .mul _ _ => true
  | .recip _ => true
  | .sqrt _ => true
  | .floor _ => true
  | .ceil _ => true
  | .trunc _ => true
  | .illegal7 => true
  | .illegal8 => true
  | .illegal9 => true
  | .illegalA => true
  | .illegalB => true
  | .rdst => true
  | .clrst _ => true
  | .rdcfg => true
  | .illegalF => true

/-- A number is a request word when it fits the 68 bits of R60; there is no longer form (R60, R69). -/
def requestFits (n : Nat) : Bool := decide (n < 2 ^ 68)

/-- R71: a real literal must be an exact multiple of `2^-F` in the range of R22; any other is an
assembly error. A hexadecimal word is always good. -/
def Literal.wellFormed (r : Radix) : Literal → Bool
  | .hex _ => true
  | .real negative digits decimals =>
      decide (digits * 2 ^ r.bits % 10 ^ decimals = 0) &&
      (if negative then decide (digits * 2 ^ r.bits / 10 ^ decimals ≤ 2 ^ 31)
       else decide (digits * 2 ^ r.bits / 10 ^ decimals < 2 ^ 31))

/-- R71: a mask is a number from 0 to 31, or flag names. -/
def MaskOperand.wellFormed : MaskOperand → Bool
  | .number n => decide (n ≤ 31)
  | .flags _ _ => true

/-- R66: the seven opcode values that are reserved. -/
def isReserved (op : BitVec 4) : Bool :=
  op == 0x0#4 || op == 0x7#4 || op == 0x8#4 || op == 0x9#4 || op == 0xA#4 || op == 0xB#4 || op == 0xF#4

/-- A line the assembler accepts (R70 to R72): its literals, its mask, and for `.illegal` a reserved
opcode. -/
def AsmLine.wellFormed (r : Radix) : AsmLine → Bool
  | .mul a b => a.wellFormed r && b.wellFormed r
  | .recip a => a.wellFormed r
  | .sqrt a => a.wellFormed r
  | .floor a => a.wellFormed r
  | .ceil a => a.wellFormed r
  | .trunc a => a.wellFormed r
  | .rdst => true
  | .clrst m => m.wellFormed
  | .rdcfg => true
  | .sqr a => a.wellFormed r
  | .clrall => true
  | .illegal op => isReserved op

end Sys2Proof
end

