-- ==== Sys2Proof/Decode.lean ====
section
/-! DEFINITION. Decoding and encoding a request (spec/30_encoding.md): the fields of the 68-bit word
(R60), the format of each opcode (R61, R64), the decoder (R64, R65), the encoder, which writes every
ignored bit as 0 (R70), and the entry for a row of spec/opcode_table.json. -/

namespace Sys2Proof

/-- The word `{op, a, b}` (R60). -/
def requestWord (op : BitVec 4) (a b : Word) : RequestWord := op ++ a ++ b

/-- Field `op`, bits `[67:64]` (R60). -/
def opcodeField (w : RequestWord) : BitVec 4 := w.extractLsb' 64 4

/-- Field `a`, bits `[63:32]` (R60). -/
def operandA (w : RequestWord) : Word := w.extractLsb' 32 32

/-- Field `b`, bits `[31:0]` (R60). -/
def operandB (w : RequestWord) : Word := w.extractLsb' 0 32

/-- The mask of format M, `a[4:0]` (R61, R128). -/
def maskOf (a : Word) : FlagSet := a.extractLsb' 0 5

/-- The four formats of R61. -/
inductive Format where
  /-- both operands are read -/
  | B
  /-- `a` is read, `b` ignored -/
  | U
  /-- `a[4:0]` is read, the rest ignored -/
  | M
  /-- nothing is read -/
  | N
  deriving DecidableEq, Repr

/-- The format column of the opcode map (R64). -/
def formatOf (op : BitVec 4) : Format :=
  match op with
  | 0x1#4 => .B
  | 0x2#4 => .U
  | 0x3#4 => .U
  | 0x4#4 => .U
  | 0x5#4 => .U
  | 0x6#4 => .U
  | 0xD#4 => .M
  | _ => .N

/-- The decoder: total, and the operation depends on `op` alone (R64, R65). The arms are the sixteen rows of
R64; the last arm is opcode `0xF`, the only one left. -/
def decode (w : RequestWord) : Instr :=
  match opcodeField w with
  | 0x0#4 => .illegal0
  | 0x1#4 => .mul (operandA w) (operandB w)
  | 0x2#4 => .recip (operandA w)
  | 0x3#4 => .sqrt (operandA w)
  | 0x4#4 => .floor (operandA w)
  | 0x5#4 => .ceil (operandA w)
  | 0x6#4 => .trunc (operandA w)
  | 0x7#4 => .illegal7
  | 0x8#4 => .illegal8
  | 0x9#4 => .illegal9
  | 0xA#4 => .illegalA
  | 0xB#4 => .illegalB
  | 0xC#4 => .rdst
  | 0xD#4 => .clrst (maskOf (operandA w))
  | 0xE#4 => .rdcfg
  | _ => .illegalF

/-- The opcode of each operation (R64). -/
def opcodeOf : Instr → BitVec 4
  | .illegal0 => 0x0#4
  | .mul _ _ => 0x1#4
  | .recip _ => 0x2#4
  | .sqrt _ => 0x3#4
  | .floor _ => 0x4#4
  | .ceil _ => 0x5#4
  | .trunc _ => 0x6#4
  | .illegal7 => 0x7#4
  | .illegal8 => 0x8#4
  | .illegal9 => 0x9#4
  | .illegalA => 0xA#4
  | .illegalB => 0xB#4
  | .rdst => 0xC#4
  | .clrst _ => 0xD#4
  | .rdcfg => 0xE#4
  | .illegalF => 0xF#4

/-- The canonical encoding of an operation: every ignored bit is 0 (R61, R70). -/
def encode : Instr → RequestWord
  | .illegal0 => requestWord 0x0#4 0#32 0#32
  | .mul a b => requestWord 0x1#4 a b
  | .recip a => requestWord 0x2#4 a 0#32
  | .sqrt a => requestWord 0x3#4 a 0#32
  | .floor a => requestWord 0x4#4 a 0#32
  | .ceil a => requestWord 0x5#4 a 0#32
  | .trunc a => requestWord 0x6#4 a 0#32
  | .illegal7 => requestWord 0x7#4 0#32 0#32
  | .illegal8 => requestWord 0x8#4 0#32 0#32
  | .illegal9 => requestWord 0x9#4 0#32 0#32
  | .illegalA => requestWord 0xA#4 0#32 0#32
  | .illegalB => requestWord 0xB#4 0#32 0#32
  | .rdst => requestWord 0xC#4 0#32 0#32
  | .clrst m => requestWord 0xD#4 (m.setWidth 32) 0#32
  | .rdcfg => requestWord 0xE#4 0#32 0#32
  | .illegalF => requestWord 0xF#4 0#32 0#32

/-- The bits of a request that its format reads, as a mask on the word (R61, R65): `op` always, then the
operand bits of the format. -/
def readBits : Format → RequestWord
  | .B => 0xF_FFFFFFFF_FFFFFFFF#68
  | .U => 0xF_FFFFFFFF_00000000#68
  | .M => 0xF_0000001F_00000000#68
  | .N => 0xF_00000000_00000000#68

/-- The same request with every ignored bit cleared (R61, R70). -/
def canonicalWord (w : RequestWord) : RequestWord := w &&& readBits (formatOf (opcodeField w))

/-- A canonical encoding (R70): every ignored bit is 0. -/
def isCanonical (w : RequestWord) : Bool := canonicalWord w == w

/-- Why a number is turned away before it is decoded. -/
inductive Reject where
  /-- it needs more than the 68 bits of a request word (R60, R69) -/
  | widerThanRequest
  deriving DecidableEq, Repr

/-- Decode a number given as a request word: every number of 68 bits decodes (R65), a wider one is not a
request word (R60; log entry 10). -/
def decodeNumber (n : Nat) : Except Reject Instr :=
  if requestFits n then .ok (decode (BitVec.ofNat 68 n)) else .error .widerThanRequest

/-- The instruction the decoder reads from a row of spec/opcode_table.json, whose bits are numbered as R60
numbers them (`op` at 67:64). Bits from `nbits` up count as 0. -/
def decodeTableWord (nbits w : Nat) : Option Instr :=
  match decodeNumber (w % 2 ^ nbits) with
  | .ok i => some i
  | .error _ => none

end Sys2Proof
end

