-- ==== Sys2Proof/Machine/Operands.lean ====
section
/-! DEFINITION. How an operand word is read and how a result word is made: the notation of R14 and the
constants of R15. -/

namespace Sys2Proof.Machine

/-- `sgn(w) = w[31]` (R14). -/
def sgn (w : Word) : Bool := w.msb

/-- `sint(w)`, two's complement (R14). -/
def sint (w : Word) : Int := w.toInt

/-- `mag(w) = |sint(w)|`, in `0 .. 2^31` (R14). -/
def mag (w : Word) : Nat := (sint w).natAbs

/-- `word(z) = z mod 2^32` (R14). -/
def word (z : Int) : Word := BitVec.ofInt 32 z

/-- `sword(s, m)`: apply a sign bit to a magnitude (R14). -/
def sword (s : Bool) (m : Nat) : Word := if s then word (-(m : Int)) else word (m : Int)

/-- `val(w) = sint(w) / 2^F` (R14, R20). -/
def val (r : Radix) (w : Word) : ℚ := (sint w : ℚ) / 2 ^ r.bits

/-- `ZERO` (R15). -/
def zeroWord : Word := 0x00000000#32

/-- `ONE`, `2^F` (R15). -/
def oneWord (r : Radix) : Word := BitVec.ofNat 32 (2 ^ r.bits)

/-- `FRAC_MASK`, `2^F - 1` (R15). -/
def fracMask (r : Radix) : Word := BitVec.ofNat 32 (2 ^ r.bits - 1)

/-- `INT_MASK`, `0xFFFFFFFF xor FRAC_MASK` (R15). -/
def intMask (r : Radix) : Word := 0xFFFFFFFF#32 ^^^ fracMask r

/-- `MAXMAG` as an integer (R15). -/
def maxMag : Nat := 0x7FFFFFFF

/-- `MAXMAG` as a word (R15). -/
def maxMagWord : Word := 0x7FFFFFFF#32

/-- `SAT(s)`: `MAXMAG` or its negation (R15). -/
def sat (s : Bool) : Word := sword s maxMag

/-- `MINPAT`, the most negative pattern (R15). -/
def minPat : Word := 0x80000000#32

/-- `MAXINT = MAXMAG and INT_MASK` (R15). -/
def maxIntWord (r : Radix) : Word := maxMagWord &&& intMask r

/-- `z >> k = z div 2^k` over the integers: rounds toward minus infinity (R14). -/
def shiftRight (z : Int) (k : Nat) : Int := z / 2 ^ k

/-- `z << k = z * 2^k` (R14). -/
def shiftLeft (z : Int) (k : Nat) : Int := z * 2 ^ k

/-- The largest integer below `root + 2^n` that is at least `root` and whose square is at most `u`, found one
binary digit at a time. -/
def rootDigits (u : Nat) : Nat → Nat → Nat
  | 0, root => root
  | n + 1, root =>
    let next := root + 2 ^ n
    rootDigits u n (if next * next ≤ u then next else root)

/-- `isqrt(u)`, the largest integer `r` with `r*r <= u` (R14), for a `u` below `2^48`: its root then has at most
24 binary digits. R102 needs no more: the radicand "fits 47 bits". -/
def isqrt (u : Nat) : Nat := rootDigits u 24 0

end Sys2Proof.Machine
end

