-- ==== Sys2Proof/Machine/Flags.lean ====
section
/-! DEFINITION. The five flags (R16, R27) and the operations on flag sets that the step uses (R17, R28). -/

namespace Sys2Proof.Machine

/-- OVF, overflow (R27). -/
def flagOVF : FlagSet := 0b00001#5

/-- UNF, underflow (R27). -/
def flagUNF : FlagSet := 0b00010#5

/-- DZ, reciprocal of zero (R27). -/
def flagDZ : FlagSet := 0b00100#5

/-- INV, invalid operand (R27). -/
def flagINV : FlagSet := 0b01000#5

/-- ILL, reserved opcode (R27). -/
def flagILL : FlagSet := 0b10000#5

/-- `f & mask != 0`: a raised flag is selected (R17, R145). -/
def selects (mask f : FlagSet) : Bool := f &&& mask != 0#5

/-- `(STATUS & ~clr) | f` (R17, R146). -/
def accumulate (status clr f : FlagSet) : FlagSet := (status &&& ~~~clr) ||| f

/-- A flag set with exactly one bit (R28). -/
def isOneHot (f : FlagSet) : Bool :=
  f == flagOVF || f == flagUNF || f == flagDZ || f == flagINV || f == flagILL

/-- "always zero or one-hot" (R28, R144). -/
def isZeroOrOneHot (f : FlagSet) : Bool := f == 0#5 || isOneHot f

/-- `zext_32` of a flag set (R14, R127). -/
def flagImage (f : FlagSet) : Word := f.setWidth 32

end Sys2Proof.Machine
end

