-- ==== Sys2Proof/Machine/State.lean ====
section
/-! DEFINITION. The state of the FXU: the three registers of R24, the two ports as the handshake of R40 to R44
leaves them between two clock edges, and what the requester will drive next; beside it the build, which R36 makes an
argument of the step. -/

namespace Sys2Proof.Machine

/-- What a response carries (R41, R62). -/
structure Response where
  /-- `rsp_result` -/
  result : Word
  /-- `rsp_flags`, the flags this request raised (R62) -/
  flags : FlagSet
  deriving DecidableEq, Repr

/-- What the requester drives at one rising edge of `clk` (R40, R41, R42). `req` is the payload while
`req_valid = 1` and `none` while `req_valid = 0`. -/
structure Sample where
  rst : Bool
  req : Option RequestWord
  rspReady : Bool
  deriving DecidableEq, Repr

/-- The state of one unit between two clock edges, without the parameters: "arguments of the model's step, not fields of its
state" (R36). `status`, `fault` and `fcause` are the whole architectural state (R24). `rsp` and `held` are what the two ports
keep (R44 (a), R43 (a)). `inputs` is the outside world: the pins at the edges to come (log entry 3). The step on this state,
with the build as its argument, is `unitStep` (Machine/Ports.lean). -/
structure UnitState where
  /-- `STATUS`, sticky flags (R27, R28) -/
  status : FlagSet
  /-- `FAULT` (R30), driven on the `fault` pin (R42) -/
  fault : Bool
  /-- `FCAUSE` (R31), driven on the `fault_flags` pins (R42) -/
  fcause : FlagSet
  /-- the response offered and not yet taken: `rsp_valid` and its payload (R41, R44 (a)) -/
  rsp : Option Response
  /-- a request that was raised at an earlier edge and not accepted there (R43 (a)) -/
  held : Option RequestWord
  /-- the requester's pins at the coming edges, the next one first -/
  inputs : List Sample
  deriving DecidableEq, Repr

/-- The one argument that the host's `exec` and `step` take: the state of a unit and the arguments of R36, RADIX and
ASSERT_MASK, side by side. `build` is no state: no step writes it, and the step is `unitStep` on the build and the unit's state
(DESIGN CHOICE of the form only, log entry 1). -/
structure State extends UnitState where
  /-- RADIX and ASSERT_MASK (R8, R10), constants of the unit (R36) -/
  build : Build
  deriving DecidableEq, Repr

/-- Why the machine stops. -/
inductive Fault where
  /-- `FAULT` is 1 and no reset is to come: "no step exists (the unit is stuck until reset)" (R17, R147, R158).
  Raised by `commit` (a request executed on a stopped unit) and by `unitStep`. Safe: the spec gives the stuck
  unit no successor (log entry 6). Entering the fault (R146) is a next state, not this. -/
  | stopped
  deriving DecidableEq, Repr

/-- Why a step has no meaning. -/
inductive Refusal where
  /-- An instruction without a meaning in this model. No arm of `exec` answers it: every row of the table has
  its meaning. Safe. -/
  | notModelled (mnemonic : String)
  /-- The requester changed or dropped a request it had raised before the unit accepted it: "a model should
  refuse such a requester rather than give it a meaning" (R43 (a), U1). Raised by `unitStep`. Safe
  (log entry 5). -/
  | requestChanged
  deriving DecidableEq, Repr

/-- The reset state of R37 and R160, whatever the build, with what the requester will drive afterwards: the registers
0, no response offered, no request standing. -/
def UnitState.resetWith (inputs : List Sample) : UnitState :=
  { status := 0#5, fault := false, fcause := 0#5, rsp := none, held := none, inputs := inputs }

/-- The reset state beside a given build, which reset leaves as it is (R163). -/
def State.resetOf (b : Build) (inputs : List Sample) : State :=
  { toUnitState := UnitState.resetWith inputs, build := b }

/-- The machine right after reset (R37), nothing offered yet, on the build of `Config.resetBuild`
(log entry 1). The reset of every build is `(coreOn b).reset`. -/
def State.reset : State := State.resetOf Config.resetBuild []

end Sys2Proof.Machine
end

