-- ==== Sys2Proof/Machine/Ops.lean ====
section
/-! DEFINITION. The operations every meaning goes through: what one operation answers, the step of R17 that
applies the answer to the state, entering the fault (R146), and reset, the only way back from it (R147, R160). -/

namespace Sys2Proof.Machine

/-- What the rule of an operation answers: `(v, f, clr)` of R17. -/
structure OpResult where
  /-- `rsp.result` -/
  value : Word
  /-- `rsp.flags` -/
  flags : FlagSet
  /-- STATUS bits to clear: "clr is 0 except for CLRST" (R17) -/
  clr : FlagSet := 0#5
  deriving DecidableEq, Repr

/-- The response word `{flags, result}` (R62). -/
def responseWord (r : Response) : ResponseWord := r.flags ++ r.result

/-- Entering the fault (R146): the flag is still accumulated, FCAUSE takes the flags of the operation, FAULT
becomes 1 and no response is produced. Nothing else is saved and control goes nowhere. -/
def raiseFault (s : State) (f clr : FlagSet) : State :=
  { s with status := accumulate s.status clr f, fcause := f, fault := true, rsp := none }

/-- The edge at which `rst = 1` (R160): the reset state, the pins after this edge still to come. It is the one way out of the
fault (R147); it withdraws an offered response (R162) and forgets a standing request (log entry 5). It does not touch the
build, which is no state (R36, R163). -/
def resetEdge (rest : List Sample) : UnitState := UnitState.resetWith rest

/-- Answering a request (R17): STATUS accumulates and the response is offered. -/
def answer (s : State) (r : OpResult) : State :=
  { s with status := accumulate s.status r.clr r.flags, rsp := some { result := r.value, flags := r.flags } }

/-- The step of R17 for one request, after its operation's rule has answered `r`: no step exists while FAULT is
1; else a flag that ASSERT_MASK selects enters the fault, and any other answer becomes the response. -/
def commit (s : State) (r : OpResult) : Host.Outcome State Fault Refusal :=
  if s.fault then .fault .stopped
  else if selects s.build.assertMask r.flags then .next (raiseFault s r.flags r.clr)
  else .next (answer s r)

/-- An outcome with the build, the argument of the step (R36), put beside its state. -/
def withBuild (b : Build) : Host.Outcome UnitState Fault Refusal → Host.Outcome State Fault Refusal
  | .next u => .next { toUnitState := u, build := b }
  | .fault c => .fault c
  | .refused c => .refused c

/-- An outcome without the build beside its state. -/
def withoutBuild : Host.Outcome State Fault Refusal → Host.Outcome UnitState Fault Refusal
  | .next s => .next s.toUnitState
  | .fault c => .fault c
  | .refused c => .refused c

end Sys2Proof.Machine
end

