-- ==== Sys2Proof/Machine/Control.lean ====
section
/-! DEFINITION. RDST, CLRST, RDCFG and the operation of the seven reserved opcodes
(spec/45_control_ops.md), with the constant CONFIG (R32) and the identity string (R1). -/

namespace Sys2Proof.Machine

/-- `VERSION`, `0x10` (R32). -/
def configVersion : BitVec 8 := 0x10#8

/-- `CONFIG` (R32): reserved `[31:24]`, VERSION `[23:16]`, reserved `[15:13]`, ASSERT_MASK `[12:8]`, reserved
`[7:6]`, RADIX `[5:0]`. -/
def configWord (b : Build) : Word :=
  0#8 ++ configVersion ++ 0#3 ++ b.assertMask ++ 0#2 ++ BitVec.ofNat 6 b.radix.bits

/-- The identity string `FXU-1.0/Q<32-RADIX>.<RADIX>` (R1). -/
def identity : Radix → String
  | .r16 => "FXU-1.0/Q16.16"
  | .r12 => "FXU-1.0/Q20.12"

/-- The rule of RDST (R127). -/
def rdstResult (status : FlagSet) : OpResult :=
  { value := flagImage status, flags := 0#5 }

/-- The rule of CLRST (R128): the old STATUS, and the mask as the bits to clear. -/
def clrstResult (status m : FlagSet) : OpResult :=
  { value := flagImage status, flags := 0#5, clr := m }

/-- The rule of RDCFG (R129). -/
def rdcfgResult (b : Build) : OpResult :=
  { value := configWord b, flags := 0#5 }

/-- The rule of every reserved opcode (R131). -/
def illegalResult : OpResult :=
  { value := zeroWord, flags := flagILL }

/-- RDST (R127). -/
def execRdst (s : State) : Host.Outcome State Fault Refusal :=
  commit s (rdstResult s.status)

/-- CLRST (R128). -/
def execClrst (m : FlagSet) (s : State) : Host.Outcome State Fault Refusal :=
  commit s (clrstResult s.status m)

/-- RDCFG (R129). -/
def execRdcfg (s : State) : Host.Outcome State Fault Refusal :=
  commit s (rdcfgResult s.build)

/-- Opcode `0x0` (R66, R131). -/
def execIllegal0 (s : State) : Host.Outcome State Fault Refusal :=
  commit s illegalResult

/-- Opcode `0x7` (R66, R131). -/
def execIllegal7 (s : State) : Host.Outcome State Fault Refusal :=
  commit s illegalResult

/-- Opcode `0x8` (R66, R131). -/
def execIllegal8 (s : State) : Host.Outcome State Fault Refusal :=
  commit s illegalResult

/-- Opcode `0x9` (R66, R131). -/
def execIllegal9 (s : State) : Host.Outcome State Fault Refusal :=
  commit s illegalResult

/-- Opcode `0xA` (R66, R131). -/
def execIllegalA (s : State) : Host.Outcome State Fault Refusal :=
  commit s illegalResult

/-- Opcode `0xB` (R66, R131). -/
def execIllegalB (s : State) : Host.Outcome State Fault Refusal :=
  commit s illegalResult

/-- Opcode `0xF` (R66, R131). -/
def execIllegalF (s : State) : Host.Outcome State Fault Refusal :=
  commit s illegalResult

end Sys2Proof.Machine
end

