-- ==== Sys2Proof/Machine/Multiply.lean ====
section
/-! DEFINITION. MUL (spec/41_multiply.md). -/

namespace Sys2Proof.Machine

/-- The rule of MUL (R82): zero bypass first (R84), then overflow, then underflow (R83), else the truncated
magnitude with the sign re-applied. `M = (mag(a) * mag(b)) div 2^F` as R81 allows. -/
def mulResult (r : Radix) (a b : Word) : OpResult :=
  let s := sgn a ^^ sgn b
  let m := mag a * mag b / 2 ^ r.bits
  if a = zeroWord ∨ b = zeroWord then { value := zeroWord, flags := 0#5 }
  else if maxMag < m then { value := sat s, flags := flagOVF }
  else if m = 0 then { value := zeroWord, flags := flagUNF }
  else { value := sword s m, flags := 0#5 }

/-- MUL (R80 to R86). -/
def execMul (a b : Word) (s : State) : Host.Outcome State Fault Refusal :=
  commit s (mulResult s.build.radix a b)

end Sys2Proof.Machine
end

