-- ==== Sys2Proof/Machine/Reciprocal.lean ====
section
/-! DEFINITION. RECIP (spec/42_reciprocal.md). -/

namespace Sys2Proof.Machine

/-- The rule of RECIP (R92): the zero operand first (R94), then overflow, then underflow (R93), else the
truncated quotient of `2^(2F)` by the magnitude with the sign re-applied. -/
def recipResult (r : Radix) (x : Word) : OpResult :=
  let s := sgn x
  let q := 2 ^ (2 * r.bits) / mag x
  if x = zeroWord then { value := maxMagWord, flags := flagDZ }
  else if maxMag < q then { value := sat s, flags := flagOVF }
  else if q = 0 then { value := zeroWord, flags := flagUNF }
  else { value := sword s q, flags := 0#5 }

/-- RECIP (R90 to R95). -/
def execRecip (a : Word) (s : State) : Host.Outcome State Fault Refusal :=
  commit s (recipResult s.build.radix a)

end Sys2Proof.Machine
end

