-- ==== Sys2Proof/Machine/Rounding.lean ====
section
/-! DEFINITION. FLOOR, CEIL and TRUNC (spec/44_rounding.md). -/

namespace Sys2Proof.Machine

/-- The rule of FLOOR (R111). -/
def floorResult (r : Radix) (x : Word) : OpResult :=
  { value := x &&& intMask r, flags := 0#5 }

/-- `c = floor(x - 1_ulp) + 1.0` over the integers (R113, R114). -/
def ceilSum (r : Radix) (x : Word) : Int :=
  shiftLeft (shiftRight (sint x - 1) r.bits) r.bits + 2 ^ r.bits

/-- The rule of CEIL (R114), saturating with OVF above MAXMAG (R115). -/
def ceilResult (r : Radix) (x : Word) : OpResult :=
  if (maxMag : Int) < ceilSum r x then { value := maxMagWord, flags := flagOVF }
  else { value := word (ceilSum r x), flags := 0#5 }

/-- The rule of TRUNC (R117): the magnitude is masked, as a 32-bit unsigned number, and the sign re-applied. -/
def truncResult (r : Radix) (x : Word) : OpResult :=
  { value := sword (sgn x) (mag x &&& (intMask r).toNat), flags := 0#5 }

/-- FLOOR (R111, R112). -/
def execFloor (a : Word) (s : State) : Host.Outcome State Fault Refusal :=
  commit s (floorResult s.build.radix a)

/-- CEIL (R113 to R116, R122). -/
def execCeil (a : Word) (s : State) : Host.Outcome State Fault Refusal :=
  commit s (ceilResult s.build.radix a)

/-- TRUNC (R117, R119). -/
def execTrunc (a : Word) (s : State) : Host.Outcome State Fault Refusal :=
  commit s (truncResult s.build.radix a)

end Sys2Proof.Machine
end

