-- ==== Sys2Proof/Machine/SquareRoot.lean ====
section
/-! DEFINITION. SQRT (spec/43_sqrt.md). -/

namespace Sys2Proof.Machine

/-- The rule of SQRT (R102): a negative operand gives ZERO with INV (R103), else the integer root of
`x << F`. -/
def sqrtResult (r : Radix) (x : Word) : OpResult :=
  if sgn x then { value := zeroWord, flags := flagINV }
  else { value := word (isqrt (x.toNat * 2 ^ r.bits) : Int), flags := 0#5 }

/-- SQRT (R100 to R104). -/
def execSqrt (a : Word) (s : State) : Host.Outcome State Fault Refusal :=
  commit s (sqrtResult s.build.radix a)

end Sys2Proof.Machine
end

