-- ==== Sys2Proof/Machine/Dispatch.lean ====
section
/-! DEFINITION. The meaning of each operation, one arm per constructor of Instr (R64). -/

namespace Sys2Proof.Machine

def exec (i : Instr) (s : State) : Host.Outcome State Fault Refusal :=
  match i with
  | .illegal0 => Sys2Proof.Machine.execIllegal0 s
  | .mul a b => Sys2Proof.Machine.execMul a b s
  | .recip a => Sys2Proof.Machine.execRecip a s
  | .sqrt a => Sys2Proof.Machine.execSqrt a s
  | .floor a => Sys2Proof.Machine.execFloor a s
  | .ceil a => Sys2Proof.Machine.execCeil a s
  | .trunc a => Sys2Proof.Machine.execTrunc a s
  | .illegal7 => Sys2Proof.Machine.execIllegal7 s
  | .illegal8 => Sys2Proof.Machine.execIllegal8 s
  | .illegal9 => Sys2Proof.Machine.execIllegal9 s
  | .illegalA => Sys2Proof.Machine.execIllegalA s
  | .illegalB => Sys2Proof.Machine.execIllegalB s
  | .rdst => Sys2Proof.Machine.execRdst s
  | .clrst m => Sys2Proof.Machine.execClrst m s
  | .rdcfg => Sys2Proof.Machine.execRdcfg s
  | .illegalF => Sys2Proof.Machine.execIllegalF s

end Sys2Proof.Machine
end

