-- ==== Sys2Proof/Machine/Ports.lean ====
section
/-! DEFINITION. The ports (spec/20_memory.md): what the unit drives on its outputs, what one rising edge of
`clk` does with the requester's pins (R40 to R44, R160 to R162), and how a request is placed on the request port. -/

namespace Sys2Proof.Machine

/-- `rst` as the requester drives it towards the next edge. -/
def rstPin (s : State) : Bool :=
  match s.inputs with
  | [] => false
  | e :: _ => e.rst

/-- `req_ready`: 0 whenever `FAULT = 1`, whenever `rst = 1`, and until the response has been taken (R44 (d), R52, R160).
It does not look at `req_valid` (R44 (b)). -/
def reqReady (s : State) : Bool := !rstPin s && !s.fault && s.rsp.isNone

/-- `rsp_valid`: a response is offered; 0 while `rst = 1` (R41, R160). It does not look at `rsp_ready`
(R44 (b)). -/
def rspValid (s : State) : Bool := !rstPin s && s.rsp.isSome

/-- `rsp_result` and `rsp_flags`, there only while `rsp_valid = 1`: "not meaningful while `rsp_valid = 0`" (R37, R43 (c);
log entry 8). -/
def rspPayload (s : State) : Option Response := if rspValid s then s.rsp else none

/-- The `fault` output is the FAULT register (R42). -/
def faultPin (s : State) : Bool := s.fault

/-- The `fault_flags` output is the FCAUSE register (R42). -/
def faultFlags (s : State) : FlagSet := s.fcause

/-- A reset is still to come. -/
def resetToCome (es : List Sample) : Bool := es.any (·.rst)

/-- The requester keeps a request it raised (R43 (a)): a standing request is offered again, unchanged. -/
def keepsRequest (u : UnitState) (e : Sample) : Bool := u.held.isNone || e.req == u.held

/-- The request accepted at this edge, if one is: `req_valid = 1` and `req_ready = 1` (R40). -/
def accepts (s : State) : Option RequestWord :=
  match s.inputs with
  | [] => none
  | e :: _ => if reqReady s && keepsRequest s.toUnitState e then e.req else none

/-- One request executed on a unit, with the build as an argument (R17, R36): `exec` on the two side by side. -/
def unitExec (b : Build) (i : Instr) (u : UnitState) : Host.Outcome UnitState Fault Refusal :=
  withoutBuild (exec i { toUnitState := u, build := b })

/-- The step of a unit: one rising edge of `clk` (log entry 2), with RADIX and ASSERT_MASK as "arguments of the model's step,
not fields of its state" (R36). Reset wins over everything (R161). A stopped unit changes nothing until reset and has no
successor when none is to come (R147, R158; log entry 6). A requester that breaks its promise is refused (R43 (a)). While a
response is offered the unit accepts nothing and keeps the response until it is taken (R44, R52). Otherwise a request that is
raised is accepted and executed (R17, R40), and an idle unit waits (R136). -/
def unitStep (b : Build) (u : UnitState) : Host.Outcome UnitState Fault Refusal :=
  match u.inputs with
  | [] => if u.fault then .fault .stopped else .next u
  | e :: rest =>
    if e.rst then .next (resetEdge rest)
    else if u.fault then
      if resetToCome rest then .next { u with inputs := rest } else .fault .stopped
    else if !keepsRequest u e then .refused .requestChanged
    else if u.rsp.isSome then
      .next { u with inputs := rest, held := e.req, rsp := if e.rspReady then none else u.rsp }
    else
      match e.req with
      | none => .next { u with inputs := rest, held := none }
      | some w => unitExec b (decode w) { u with inputs := rest, held := none }

/-- Place a request on the request port so that the very next edge accepts it: it is raised at the next edge, no
earlier response is still offered and no other request stands. Bits of `w` from `nbits` up count as 0. FAULT is left
alone: a stopped unit accepts no request (R147; log entry 3). -/
def offerWord (s : State) (nbits w : Nat) : State :=
  { s with
    rsp := none
    held := none
    inputs := { rst := false, req := some (BitVec.ofNat 68 (w % 2 ^ nbits)), rspReady := false } :: s.inputs }

end Sys2Proof.Machine
end

