-- ==== Sys2Proof/Machine/Step.lean ====
section
/-! DEFINITION. One step of the machine as the host takes it: `unitStep`, with its two arguments side by side. -/

namespace Sys2Proof.Machine

/-- One step: the step of the unit with the build as its argument (R36), and the build put beside the state it answers. -/
def step (s : State) : Host.Outcome State Fault Refusal := withBuild s.build (unitStep s.build s.toUnitState)

/-- `s` with the request word `w` on the request port, so that the next step accepts and runs it. -/
def State.withFetchWord (s : State) (nbits w : Nat) : State := offerWord s nbits w

end Sys2Proof.Machine
end

