-- ==== Sys2Proof/Machine/Assembler.lean ====
section
/-! DEFINITION. The assembler and disassembler of R70 to R72 on parsed lines. -/

namespace Sys2Proof.Machine

/-- The word of a Scalar operand (R71): a hexadecimal word as it stands; a real `d` digits long after the point as
`word(r × 2^F)`, an error when it is no exact multiple of `2^-F` in the range of R22. -/
def literalWord (r : Radix) : Literal → Option Word
  | .hex w => some w
  | .real negative digits decimals =>
    let scaled := digits * 2 ^ r.bits
    let n := scaled / 10 ^ decimals
    if scaled % 10 ^ decimals ≠ 0 then none
    else if negative then (if n ≤ 2 ^ 31 then some (word (-(n : Int))) else none)
    else if n < 2 ^ 31 then some (word (n : Int)) else none

/-- The bit of a flag name (R27). -/
def flagOfName : FlagName → FlagSet
  | .ovf => flagOVF
  | .unf => flagUNF
  | .dz => flagDZ
  | .inv => flagINV
  | .ill => flagILL

/-- The mask operand of `clrst` (R71). -/
def maskValue : MaskOperand → Option FlagSet
  | .number n => if n ≤ 31 then some (BitVec.ofNat 5 n) else none
  | .flags first more => some (more.foldl (fun acc f => acc ||| flagOfName f) (flagOfName first))

/-- The opcode of a reserved row, as an operation (R66). That `.illegal` with an opcode of R64 is an error is a DESIGN CHOICE (log
entry 13). -/
def reservedInstr (op : BitVec 4) : Option Instr :=
  if isReserved op then some (decode (requestWord op 0#32 0#32)) else none

/-- The operation a line stands for: the nine mnemonics of R70, `sqr a` as `mul a, a` and `clrall` as
`clrst 0x1F` (R72), and `.illegal 0xO` for a reserved opcode (R70, R131). -/
def lineInstr (r : Radix) : AsmLine → Option Instr
  | .mul a b => do return .mul (← literalWord r a) (← literalWord r b)
  | .recip a => do return .recip (← literalWord r a)
  | .sqrt a => do return .sqrt (← literalWord r a)
  | .floor a => do return .floor (← literalWord r a)
  | .ceil a => do return .ceil (← literalWord r a)
  | .trunc a => do return .trunc (← literalWord r a)
  | .rdst => some .rdst
  | .clrst m => do return .clrst (← maskValue m)
  | .rdcfg => some .rdcfg
  | .sqr a => do
    let w ← literalWord r a
    return .mul w w
  | .clrall => some (.clrst 0x1F#5)
  | .illegal op => reservedInstr op

/-- The request word of a line, every ignored bit 0 (R70); `none` is an assembly error (R71). -/
def assemble (r : Radix) (l : AsmLine) : Option RequestWord := (lineInstr r l).map encode

/-- The line a disassembler prints: the mnemonic of `op` and only the operands the format reads (R70). Operands are
written as hexadecimal words, the mask as a number: DESIGN CHOICE (log entry 13). -/
def disassemble (w : RequestWord) : AsmLine :=
  match decode w with
  | .illegal0 => .illegal 0x0#4
  | .mul a b => .mul (.hex a) (.hex b)
  | .recip a => .recip (.hex a)
  | .sqrt a => .sqrt (.hex a)
  | .floor a => .floor (.hex a)
  | .ceil a => .ceil (.hex a)
  | .trunc a => .trunc (.hex a)
  | .illegal7 => .illegal 0x7#4
  | .illegal8 => .illegal 0x8#4
  | .illegal9 => .illegal 0x9#4
  | .illegalA => .illegal 0xA#4
  | .illegalB => .illegal 0xB#4
  | .rdst => .rdst
  | .clrst m => .clrst (.number m.toNat)
  | .rdcfg => .rdcfg
  | .illegalF => .illegal 0xF#4

end Sys2Proof.Machine
end

