-- ==== Sys2Proof/Machine/AssemblerText.lean ====
section
/-! DEFINITION. The text of an assembly line (R70, R71), read and printed. The points of spelling that R70 and R71
leave open are in log entry 13. -/

namespace Sys2Proof.Machine

/-- The value of a digit in a base up to 16. A hexadecimal digit above 9 may be in either case: DESIGN CHOICE (log entry 13). -/
def digitValue (base : Nat) (c : Char) : Option Nat :=
  let n := c.toNat
  let v :=
    if 48 ≤ n ∧ n ≤ 57 then n - 48
    else if 65 ≤ n ∧ n ≤ 70 then n - 55
    else if 97 ≤ n ∧ n ≤ 102 then n - 87
    else 99
  if v < base then some v else none

/-- Digits in a base, added to what came before. -/
def digitsFrom (base : Nat) : List Char → Nat → Option Nat
  | [], acc => some acc
  | c :: cs, acc =>
    match digitValue base c with
    | some v => digitsFrom base cs (acc * base + v)
    | none => none

/-- One or more digits in a base. -/
def numberText (base : Nat) (cs : List Char) : Option Nat :=
  if cs.isEmpty then none else digitsFrom base cs 0

/-- White space of a line: DESIGN CHOICE (log entry 13). -/
def isBlank (c : Char) : Bool := c == ' ' || c == '\t'

/-- Text without the white space around it. -/
def trimText (cs : List Char) : List Char :=
  ((cs.dropWhile isBlank).reverse.dropWhile isBlank).reverse

/-- The part of a line before its comment (R70). -/
def withoutComment (cs : List Char) : List Char := cs.takeWhile (· != ';')

/-- The parts of a text between separators. -/
def splitText (sep : Char) : List Char → List (List Char)
  | [] => [[]]
  | c :: cs =>
    if c == sep then [] :: splitText sep cs
    else
      match splitText sep cs with
      | [] => [[c]]
      | p :: ps => (c :: p) :: ps

/-- A decimal real with a decimal point (R71), its sign already read. That it has a digit on each side of the point is a DESIGN
CHOICE (log entry 13). -/
def realText (negative : Bool) (cs : List Char) : Option Literal :=
  match splitText '.' cs with
  | [whole, fraction] => do
    let _ ← numberText 10 whole
    let _ ← numberText 10 fraction
    let digits ← numberText 10 (whole ++ fraction)
    return .real negative digits fraction.length
  | _ => none

/-- A Scalar operand (R71): `0x` and eight hexadecimal digits, or a decimal real. That a word has exactly eight digits and no sign,
and that a real has no sign but `-`, is a DESIGN CHOICE (log entry 13). -/
def literalText : List Char → Option Literal
  | '0' :: 'x' :: cs => do
    let n ← numberText 16 cs
    if cs.length = 8 then return .hex (BitVec.ofNat 32 n) else none
  | '-' :: cs => realText true cs
  | cs => realText false cs

/-- A flag name as R27 spells it; that no other case is read is a DESIGN CHOICE (log entry 13). -/
def flagText (cs : List Char) : Option FlagName :=
  if cs = ['O', 'V', 'F'] then some .ovf
  else if cs = ['U', 'N', 'F'] then some .unf
  else if cs = ['D', 'Z'] then some .dz
  else if cs = ['I', 'N', 'V'] then some .inv
  else if cs = ['I', 'L', 'L'] then some .ill
  else none

/-- A mask operand (R71): a hexadecimal or binary number, or flag names joined by `|`. The lower-case `0x` and `0b`, the free count of
digits, and blanks and repeats among the names are a DESIGN CHOICE (log entry 13). -/
def maskText : List Char → Option MaskOperand
  | '0' :: 'x' :: cs => (numberText 16 cs).map .number
  | '0' :: 'b' :: cs => (numberText 2 cs).map .number
  | cs => do
    match ← (splitText '|' cs).mapM (fun p => flagText (trimText p)) with
    | [] => none
    | f :: fs => return .flags f fs

/-- The operand of `.illegal 0xO` (R70, R131): one hexadecimal digit after a lower-case `0x`. That the digit may be written in either
case is a DESIGN CHOICE (log entry 13). -/
def opcodeText : List Char → Option (BitVec 4)
  | ['0', 'x', c] => (digitValue 16 c).map (BitVec.ofNat 4)
  | _ => none

/-- The operands of a line: nothing, or texts between commas (R70). -/
def operandTexts (cs : List Char) : List (List Char) :=
  let body := trimText cs
  if body.isEmpty then [] else (splitText ',' body).map trimText

/-- A line of assembly: `mnemonic operand, operand` with an optional comment (R70). R70 says "in either case" of the nine mnemonics;
that a word of mixed case (`MuL`) is one of them too, and that the pseudo-instructions `sqr` and `clrall` (R72) and the
directive `.illegal` (R70, R131) may be written in any case, is a DESIGN CHOICE (log entry 13). -/
def parseLine (text : String) : Option AsmLine :=
  let body := trimText (withoutComment text.toList)
  let name := (body.takeWhile (fun c => !isBlank c)).map Char.toLower
  let operands := operandTexts (body.dropWhile (fun c => !isBlank c))
  match operands with
  | [] =>
    if name = "rdst".toList then some .rdst
    else if name = "rdcfg".toList then some .rdcfg
    else if name = "clrall".toList then some .clrall
    else none
  | [x] =>
    if name = "recip".toList then (literalText x).map .recip
    else if name = "sqrt".toList then (literalText x).map .sqrt
    else if name = "floor".toList then (literalText x).map .floor
    else if name = "ceil".toList then (literalText x).map .ceil
    else if name = "trunc".toList then (literalText x).map .trunc
    else if name = "sqr".toList then (literalText x).map .sqr
    else if name = "clrst".toList then (maskText x).map .clrst
    else if name = ".illegal".toList then (opcodeText x).map .illegal
    else none
  | [x, y] =>
    if name = "mul".toList then do return .mul (← literalText x) (← literalText y)
    else none
  | _ => none

/-- The request word of a line of text, for the radix the assembler was told (R70, R71). -/
def assembleText (r : Radix) (text : String) : Option RequestWord := (parseLine text).bind (assemble r)

/-- A hexadecimal digit, printed in upper case: DESIGN CHOICE (log entry 13). -/
def hexDigit (n : Nat) : Char := if n < 10 then Char.ofNat (48 + n) else Char.ofNat (55 + n)

/-- The lowest `k` hexadecimal digits of a number, the most significant first. -/
def hexDigits : Nat → Nat → List Char
  | 0, _ => []
  | k + 1, n => hexDigits k (n / 16) ++ [hexDigit (n % 16)]

/-- A number of `k` hexadecimal digits with its `0x`. -/
def hexText (k n : Nat) : String := "0x" ++ String.ofList (hexDigits k n)

/-- The text a disassembler prints for a request word (R70). Its spelling is a DESIGN CHOICE (log entry 13). -/
def disassembleText (w : RequestWord) : String :=
  match decode w with
  | .illegal0 => ".illegal 0x0"
  | .mul a b => "mul " ++ hexText 8 a.toNat ++ ", " ++ hexText 8 b.toNat
  | .recip a => "recip " ++ hexText 8 a.toNat
  | .sqrt a => "sqrt " ++ hexText 8 a.toNat
  | .floor a => "floor " ++ hexText 8 a.toNat
  | .ceil a => "ceil " ++ hexText 8 a.toNat
  | .trunc a => "trunc " ++ hexText 8 a.toNat
  | .illegal7 => ".illegal 0x7"
  | .illegal8 => ".illegal 0x8"
  | .illegal9 => ".illegal 0x9"
  | .illegalA => ".illegal 0xA"
  | .illegalB => ".illegal 0xB"
  | .rdst => "rdst"
  | .clrst m => "clrst " ++ hexText 2 m.toNat
  | .rdcfg => "rdcfg"
  | .illegalF => ".illegal 0xF"

end Sys2Proof.Machine
end

