-- ==== Sys2Proof/Machine/Datapaths.lean ====
section
/-! DEFINITION. The datapaths the spec describes beside the results: the half-word multiply of R81, which the
document prescribes, and the reference datapaths of R99 and R109, information only. None of them is what `exec` runs
(the results of R82, R92 and R102 are); that they compute the same values is stated, not assumed. -/

namespace Sys2Proof.Machine

/-- The high half-word `u[31:16]` (R81). -/
def highHalf (u : Nat) : Nat := u / 2 ^ 16

/-- The low half-word `u[15:0]` (R81). -/
def lowHalf (u : Nat) : Nat := u % 2 ^ 16

/-- `hi×hi` (R81), the document's high partial product (R85). -/
def highProduct (ua ub : Nat) : Nat := highHalf ua * highHalf ub

/-- `lo×hi + hi×lo` (R81). -/
def middleProduct (ua ub : Nat) : Nat := lowHalf ua * highHalf ub + highHalf ua * lowHalf ub

/-- `lo×lo` (R81). -/
def lowProduct (ua ub : Nat) : Nat := lowHalf ua * lowHalf ub

/-- `P = (hh << 32) + (mid << 16) + ll` (R81). -/
def halfWordProduct (ua ub : Nat) : Nat :=
  highProduct ua ub * 2 ^ 32 + middleProduct ua ub * 2 ^ 16 + lowProduct ua ub

/-- Each partial product shifted on its own and then added (R81). -/
def shiftedPartials (f ua ub : Nat) : Nat :=
  highProduct ua ub * 2 ^ (32 - f) + middleProduct ua ub * 2 ^ 16 / 2 ^ f + lowProduct ua ub / 2 ^ f

/-- `bitlen(u)`: `bitlen(0) = 0`, otherwise `floor(log2(u)) + 1` (R14). -/
def bitlen (u : Nat) : Nat := if u = 0 then 0 else u.log2 + 1

/-- One iteration of the restoring division of R99: bring down a digit of the dividend, subtract if it fits.
The pair is the quotient and the remainder so far. -/
def divideDigit (d : Nat) (digit : Bool) (qr : Nat × Nat) : Nat × Nat :=
  let rem := 2 * qr.2 + digit.toNat
  if d ≤ rem then (2 * qr.1 + 1, rem - d) else (2 * qr.1, rem)

/-- The restoring division of R99 over the lowest `n` digits of the dividend, the most significant first. -/
def restoringDivide (dividend d : Nat) : Nat → Nat × Nat → Nat × Nat
  | 0, qr => qr
  | n + 1, qr => restoringDivide dividend d n (divideDigit d (dividend.testBit n) qr)

/-- One iteration of the digit recurrence of R109 on root and remainder: bring down two digits of the radicand,
subtract `4*root + 1` if it fits. -/
def rootDigit (pair : Nat) (rr : Nat × Nat) : Nat × Nat :=
  let rem := 4 * rr.2 + pair
  let trial := 4 * rr.1 + 1
  if trial ≤ rem then (2 * rr.1 + 1, rem - trial) else (2 * rr.1, rem)

/-- The digit recurrence of R109 over the lowest `n` two-digit groups of the radicand, the most significant first. -/
def restoringRoot (radicand : Nat) : Nat → Nat × Nat → Nat × Nat
  | 0, rr => rr
  | n + 1, rr => restoringRoot radicand n (rootDigit (radicand / 4 ^ n % 4) rr)

end Sys2Proof.Machine
end

