-- ==== Sys2Proof/Machine/Parameters.lean ====
section
/-! DEFINITION. The machine of each build (R36): `Sys2Proof.core` holds the build beside its state, because the host's step takes
one argument; here the build is the argument and the state does not hold it. -/

namespace Sys2Proof.Machine

/-- The machine of the build `b`: its state, its reset state and the type of its step know no parameter (R36, R37, R163). -/
def coreOn (b : Build) : Host.Core :=
  { State := UnitState, Fault := Fault, Refusal := Refusal, step := unitStep b, reset := UnitState.resetWith [] }

end Sys2Proof.Machine
end

