-- ==== Sys2Proof/Machine/Transaction.lean ====
section
/-! DEFINITION. The transaction view of R45: the step of R17 on the three registers of R24 alone, applied to a
sequence of accepted requests. The machine of Machine/Ports.lean has pins; this is what is left when they are dropped. -/

namespace Sys2Proof.Machine

/-- The three registers of R24. -/
structure Registers where
  status : FlagSet
  fault : Bool
  fcause : FlagSet
  deriving DecidableEq, Repr

/-- The registers of a state. -/
def registersOf (s : State) : Registers := { status := s.status, fault := s.fault, fcause := s.fcause }

/-- The reset value of the registers (R37). -/
def resetRegisters : Registers := { status := 0#5, fault := false, fcause := 0#5 }

/-- `exec(RADIX, req.op, req.a, req.b, S.STATUS)` of R17: the rule of the operation. The build stands in place of
RADIX because RDCFG returns ASSERT_MASK too (R32). -/
def operation (b : Build) (status : FlagSet) : Instr → OpResult
  | .illegal0 => illegalResult
  | .mul x y => mulResult b.radix x y
  | .recip x => recipResult b.radix x
  | .sqrt x => sqrtResult b.radix x
  | .floor x => floorResult b.radix x
  | .ceil x => ceilResult b.radix x
  | .trunc x => truncResult b.radix x
  | .illegal7 => illegalResult
  | .illegal8 => illegalResult
  | .illegal9 => illegalResult
  | .illegalA => illegalResult
  | .illegalB => illegalResult
  | .rdst => rdstResult status
  | .clrst m => clrstResult status m
  | .rdcfg => rdcfgResult b
  | .illegalF => illegalResult

/-- The six arithmetic operations (R2, R18). -/
def isArithmetic : Instr → Bool
  | .illegal0 => false
  | .mul _ _ => true
  | .recip _ => true
  | .sqrt _ => true
  | .floor _ => true
  | .ceil _ => true
  | .trunc _ => true
  | .illegal7 => false
  | .illegal8 => false
  | .illegal9 => false
  | .illegalA => false
  | .illegalB => false
  | .rdst => false
  | .clrst _ => false
  | .rdcfg => false
  | .illegalF => false

/-- The step of R17 on a unit that has not stopped: the registers after the request and the response, `none` when it
faults. -/
def transact (b : Build) (g : Registers) (w : RequestWord) : Registers × Option Response :=
  let r := operation b g.status (decode w)
  let status := (g.status &&& ~~~r.clr) ||| r.flags
  if r.flags &&& b.assertMask = 0#5 then
    ({ g with status := status }, some { result := r.value, flags := r.flags })
  else ({ status := status, fault := true, fcause := r.flags }, none)

/-- A request sequence applied in order (R45). It ends at a fault: no step exists from a stopped unit (R17). -/
def transactAll (b : Build) (g : Registers) : List RequestWord → Registers × List (Option Response)
  | [] => (g, [])
  | w :: ws =>
    if g.fault then (g, [])
    else
      let one := transact b g w
      let more := transactAll b one.1 ws
      (more.1, one.2 :: more.2)

end Sys2Proof.Machine
end

