-- ==== Sys2Proof/Safety.lean ====
section
/-! DEFINITION. What the claims call a good state and a safe run, in the spec's own terms. -/

namespace Sys2Proof.Machine

/-- The next state of a request that raises `f` and is answered with `v` (R17): STATUS accumulates `f`, the response is
offered, nothing else changes. -/
def answersWith (s : State) (v : Word) (f : FlagSet) : State :=
  { s with status := s.status ||| f, rsp := some { result := v, flags := f } }

/-- The next state of a request that raises a selected flag `f` (R146): STATUS accumulates `f`, FCAUSE is `f`, FAULT is
1, no response is offered, nothing else changes. -/
def stopsWith (s : State) (f : FlagSet) : State :=
  { s with status := s.status ||| f, fcause := f, fault := true, rsp := none }

/-- The value returned beside each flag (R141): saturation with OVF, ZERO with UNF, INV and ILL, MAXMAG with DZ. No
flag puts no bound on the result. -/
def fallbackOk (r : Response) : Bool :=
  if r.flags = flagOVF then r.result == sat false || r.result == sat true
  else if r.flags = flagDZ then r.result == maxMagWord
  else if r.flags = 0#5 then true
  else r.result == zeroWord

/-- An offered response: zero or one flag (R28), with its fallback value (R141), the flag already in STATUS and not one
that ASSERT_MASK selects (R17, R146). -/
def responseOk (s : State) (r : Response) : Bool :=
  isZeroOrOneHot r.flags && fallbackOk r && (s.status &&& r.flags == r.flags) && !selects s.build.assertMask r.flags

/-- The relation between the registers that reset establishes and every edge keeps. While FAULT is 0, FCAUSE is 0 (R31)
and what is offered is a good response. While FAULT is 1, FCAUSE holds the one flag that stopped the unit, selected by
ASSERT_MASK and accumulated in STATUS, and no response is offered (R146). -/
def State.good (s : State) : Bool :=
  if s.fault then
    isOneHot s.fcause && selects s.build.assertMask s.fcause && (s.status &&& s.fcause == s.fcause) && s.rsp.isNone
  else
    s.fcause == 0#5 && (match s.rsp with
      | none => true
      | some r => responseOk s r)

/-- The document's optimized build (R10, R145). -/
def optimized (b : Build) : Bool := b.assertMask == 0#5

/-- The requests accepted in the first `k` edges, in order (R45). -/
def acceptedIn : Nat → State → List RequestWord
  | 0, _ => []
  | k + 1, s =>
    match step s with
    | .next t => (accepts s).toList ++ acceptedIn k t
    | .fault _ => []
    | .refused _ => []

/-- What each accepted request of the first `k` edges was answered: the response offered after its edge, or nothing
when it faulted (R41, R146). -/
def answeredIn : Nat → State → List (Option Response)
  | 0, _ => []
  | k + 1, s =>
    match step s with
    | .next t => (if (accepts s).isSome then [t.rsp] else []) ++ answeredIn k t
    | .fault _ => []
    | .refused _ => []

/-- No reset among the next `k` edges (R162). -/
def noResetIn (k : Nat) (s : State) : Bool := !resetToCome (s.inputs.take k)

end Sys2Proof.Machine
end

