-- ==== Sys2Proof/Certificates/Slice0/Obligations.lean ====
section
/-! DEFINITION. What is claimed of the model, rule by rule of spec/. -/

section

open Sys2Proof Sys2Proof.Machine

/-! ## Words, decoding, encoding -/

/-- R15: the constants at the two radices. -/
def Obligations.ConstantsAreThoseOfTheTable : Prop :=
  zeroWord = 0x00000000#32 ∧ maxMag = 0x7FFFFFFF ∧ maxMagWord = 0x7FFFFFFF#32 ∧ maxMagWord.toNat = maxMag ∧
  minPat = 0x80000000#32 ∧
  sat false = 0x7FFFFFFF#32 ∧ sat true = 0x80000001#32 ∧
  oneWord .r16 = 0x00010000#32 ∧ oneWord .r12 = 0x00001000#32 ∧
  fracMask .r16 = 0x0000FFFF#32 ∧ fracMask .r12 = 0x00000FFF#32 ∧
  intMask .r16 = 0xFFFF0000#32 ∧ intMask .r12 = 0xFFFFF000#32 ∧
  maxIntWord .r16 = 0x7FFF0000#32 ∧ maxIntWord .r12 = 0x7FFFF000#32 ∧
  (∀ r : Radix, fracMask r = word (2 ^ r.bits - 1) ∧ intMask r = 0xFFFFFFFF#32 ^^^ fracMask r ∧
    maxIntWord r = maxMagWord &&& intMask r ∧ val r (oneWord r) = 1 ∧ sint (oneWord r) = 2 ^ r.bits ∧
    val r zeroWord = 0 ∧ val r maxMagWord = 2 ^ (31 - r.bits) - 1 / 2 ^ r.bits) ∧
  sat false = maxMagWord ∧ sat true = word (-(maxMag : Int)) ∧
  val .r16 0x00000001#32 = 1 / 2 ^ 16 ∧ val .r12 0x00000001#32 = 1 / 2 ^ 12 ∧
  val .r16 minPat = -32768 ∧ val .r12 minPat = -524288 ∧ val .r16 0x7FFF0000#32 = 32767 ∧ val .r12 0x7FFFF000#32 = 524287

/-- R22: the Scalars are the multiples of `2^-F` from `-2^(31-F)` to `2^(31-F) - 2^-F`, each of them one word; there is one
zero. -/
def Obligations.ScalarsAreTheMultiplesOfAnUlp : Prop :=
  ∀ r : Radix,
    (∀ w : Word, -(2 ^ (31 - r.bits) : ℚ) ≤ val r w ∧ val r w ≤ 2 ^ (31 - r.bits) - 1 / 2 ^ r.bits) ∧
    (∀ w : Word, ∃ z : Int, val r w = (z : ℚ) / 2 ^ r.bits) ∧
    (∀ z : Int, -(2 ^ 31) ≤ z → z < 2 ^ 31 → ∃ w : Word, val r w = (z : ℚ) / 2 ^ r.bits ∧
      ∀ w' : Word, val r w' = (z : ℚ) / 2 ^ r.bits → w' = w) ∧
    (∀ w : Word, val r w = 0 ↔ w = 0x00000000#32)

/-- R60: `op` at `[67:64]`, `a` at `[63:32]`, `b` at `[31:0]`, one word of 68 bits. -/
def Obligations.RequestWordHoldsItsThreeFields : Prop :=
  ∀ (op : BitVec 4) (a b : Word),
    opcodeField (requestWord op a b) = op ∧ operandA (requestWord op a b) = a ∧ operandB (requestWord op a b) = b ∧
    (requestWord op a b).toNat = op.toNat * 2 ^ 64 + a.toNat * 2 ^ 32 + b.toNat

/-- R62: `flags` at `[36:32]`, `result` at `[31:0]`, one word of 37 bits; bit 32 is OVF, 33 UNF, 34 DZ, 35 INV, 36 ILL. -/
def Obligations.ResponseWordHoldsItsTwoFields : Prop :=
  ∀ r : Response,
    (responseWord r).extractLsb' 32 5 = r.flags ∧ (responseWord r).extractLsb' 0 32 = r.result ∧
    (responseWord r).toNat = r.flags.toNat * 2 ^ 32 + r.result.toNat ∧
    (responseWord r).getLsbD 32 = (r.flags &&& flagOVF != 0#5) ∧
    (responseWord r).getLsbD 33 = (r.flags &&& flagUNF != 0#5) ∧
    (responseWord r).getLsbD 34 = (r.flags &&& flagDZ != 0#5) ∧
    (responseWord r).getLsbD 35 = (r.flags &&& flagINV != 0#5) ∧
    (responseWord r).getLsbD 36 = (r.flags &&& flagILL != 0#5)

/-- R64: the opcode map, whatever the operands, with the format of each opcode. -/
def Obligations.DecodeFollowsTheOpcodeMap : Prop :=
  (∀ op : BitVec 4, formatOf op =
    if op = 0x1#4 then .B
    else if op = 0x2#4 ∨ op = 0x3#4 ∨ op = 0x4#4 ∨ op = 0x5#4 ∨ op = 0x6#4 then .U
    else if op = 0xD#4 then .M
    else .N) ∧
  ∀ a b : Word,
    decode (requestWord 0x0#4 a b) = .illegal0 ∧ decode (requestWord 0x1#4 a b) = .mul a b ∧
    decode (requestWord 0x2#4 a b) = .recip a ∧ decode (requestWord 0x3#4 a b) = .sqrt a ∧
    decode (requestWord 0x4#4 a b) = .floor a ∧ decode (requestWord 0x5#4 a b) = .ceil a ∧
    decode (requestWord 0x6#4 a b) = .trunc a ∧ decode (requestWord 0x7#4 a b) = .illegal7 ∧
    decode (requestWord 0x8#4 a b) = .illegal8 ∧ decode (requestWord 0x9#4 a b) = .illegal9 ∧
    decode (requestWord 0xA#4 a b) = .illegalA ∧ decode (requestWord 0xB#4 a b) = .illegalB ∧
    decode (requestWord 0xC#4 a b) = .rdst ∧ decode (requestWord 0xD#4 a b) = .clrst (a.extractLsb' 0 5) ∧
    decode (requestWord 0xE#4 a b) = .rdcfg ∧ decode (requestWord 0xF#4 a b) = .illegalF

/-- R61: what each format reads; two requests that agree on the bits read are one operation, with one outcome. -/
def Obligations.IgnoredBitsHaveNoEffect : Prop :=
  (∀ (op : BitVec 4) (a b : Word),
    requestWord op a b &&& readBits .B = requestWord op a b ∧
    requestWord op a b &&& readBits .U = requestWord op a 0#32 ∧
    requestWord op a b &&& readBits .M = requestWord op (a &&& 0x1F#32) 0#32 ∧
    requestWord op a b &&& readBits .N = requestWord op 0#32 0#32) ∧
  (∀ op : BitVec 4, formatOf op =
    if op = 0x1#4 then .B
    else if op = 0x2#4 ∨ op = 0x3#4 ∨ op = 0x4#4 ∨ op = 0x5#4 ∨ op = 0x6#4 then .U
    else if op = 0xD#4 then .M
    else .N) ∧
  (∀ (w w' : RequestWord) (s : State), opcodeField w = opcodeField w' → canonicalWord w = canonicalWord w' →
    decode w = decode w' ∧ exec (decode w) s = exec (decode w') s)

/-- Decode and encode agree on every operation with every operand (R60, R64, R70). -/
def Obligations.DecodeInvertsEncode : Prop := ∀ i : Instr, i.wellFormed = true → decode (encode i) = i

/-- Encoding what was decoded gives the request back with every ignored bit cleared (R61, R65, R70); on a canonical
word that is the word itself. -/
def Obligations.EncodeInvertsDecodeUpToIgnoredBits : Prop :=
  ∀ w : RequestWord, encode (decode w) = canonicalWord w ∧ (isCanonical w = true → encode (decode w) = w)

/-- R73: the worked encodings, at both radices, from the text of the line. -/
def Obligations.WorkedEncodingsAssemble : Prop :=
  assembleText .r16 "mul 1.5, 2.0" = some 0x1_00018000_00020000#68 ∧
  assembleText .r16 "recip 4.0" = some 0x2_00040000_00000000#68 ∧
  assembleText .r16 "sqrt 9.0" = some 0x3_00090000_00000000#68 ∧
  assembleText .r16 "floor -1.5" = some 0x4_FFFE8000_00000000#68 ∧
  assembleText .r16 "ceil -1.5" = some 0x5_FFFE8000_00000000#68 ∧
  assembleText .r16 "trunc -1.5" = some 0x6_FFFE8000_00000000#68 ∧
  assembleText .r12 "mul 1.5, 2.0" = some 0x1_00001800_00002000#68 ∧
  assembleText .r12 "recip 4.0" = some 0x2_00004000_00000000#68 ∧
  assembleText .r12 "sqrt 9.0" = some 0x3_00009000_00000000#68 ∧
  assembleText .r12 "floor -1.5" = some 0x4_FFFFE800_00000000#68 ∧
  assembleText .r12 "ceil -1.5" = some 0x5_FFFFE800_00000000#68 ∧
  assembleText .r12 "trunc -1.5" = some 0x6_FFFFE800_00000000#68 ∧
  (∀ r : Radix,
    assembleText r "rdst" = some 0xC_00000000_00000000#68 ∧
    assembleText r "clrst OVF|DZ" = some 0xD_00000005_00000000#68 ∧
    assembleText r "rdcfg" = some 0xE_00000000_00000000#68 ∧
    assembleText r ".illegal 0x7" = some 0x7_00000000_00000000#68)

/-- The requests of R73 decode to the operations they are written for: words written out bit by bit. -/
def Obligations.WorkedEncodingsDecode : Prop :=
  decode 0x1_00018000_00020000#68 = .mul 0x00018000#32 0x00020000#32 ∧
  decode 0x2_00040000_00000000#68 = .recip 0x00040000#32 ∧
  decode 0x3_00090000_00000000#68 = .sqrt 0x00090000#32 ∧
  decode 0x4_FFFE8000_00000000#68 = .floor 0xFFFE8000#32 ∧
  decode 0x5_FFFE8000_00000000#68 = .ceil 0xFFFE8000#32 ∧
  decode 0x6_FFFE8000_00000000#68 = .trunc 0xFFFE8000#32 ∧
  decode 0xC_00000000_00000000#68 = .rdst ∧
  decode 0xD_00000005_00000000#68 = .clrst 0b00101#5 ∧
  decode 0xE_00000000_00000000#68 = .rdcfg ∧
  decode 0x7_00000000_00000000#68 = .illegal7

/-- What the disassembler prints assembles to the canonical request again, and what the assembler emits is canonical (R70);
the two pseudo-instructions are each one request (R72). -/
def Obligations.AssemblerEmitsCanonicalWords : Prop :=
  (∀ (r : Radix) (w : RequestWord), assemble r (disassemble w) = some (canonicalWord w)) ∧
  (∀ (r : Radix) (l : AsmLine) (w : RequestWord), assemble r l = some w → isCanonical w = true ∧ l.wellFormed r = true) ∧
  (∀ (r : Radix) (a : Literal), assemble r (.sqr a) = assemble r (.mul a a) ∧
    assemble r .clrall = some (requestWord 0xD#4 0x0000001F#32 0#32))

/-- A real literal is assembled without rounding (R71): the word's value is the literal, and it is an assembly error
exactly when no Scalar has that value. -/
def Obligations.RealLiteralsAreExact : Prop :=
  ∀ (r : Radix) (negative : Bool) (digits decimals : Nat),
    let real : ℚ := (if negative then -1 else 1) * (digits : ℚ) / 10 ^ decimals
    (∀ w : Word, literalWord r (.real negative digits decimals) = some w → val r w = real) ∧
    (literalWord r (.real negative digits decimals) = none ↔ ∀ w : Word, val r w ≠ real)

/-! ## The step -/

/-- The step runs the decoded request: when the unit is idle and a request is raised, the edge is the meaning of that
request, applied to the state with this edge's pins consumed and no request standing (R17, R40); and so it is for a
request placed by `withFetchWord`. -/
def Obligations.StepRunsTheDecodedRequest : Prop :=
  (∀ (s : State) (w : RequestWord) (ready : Bool) (rest : List Sample),
    s.fault = false → s.rsp = none → (s.held = none ∨ s.held = some w) →
    s.inputs = { rst := false, req := some w, rspReady := ready } :: rest →
    step s = exec (decode w) { s with inputs := rest, held := none }) ∧
  (∀ (s : State) (w : Nat), s.fault = false → w < 2 ^ 68 →
    step (s.withFetchWord 72 w) = exec (decode (BitVec.ofNat 68 w)) { s with rsp := none, held := none })

/-- The step of R17 on one request, whole: no step while FAULT is 1; else STATUS becomes `(STATUS & ~clr) | f`, and either
a selected flag enters the fault or the response is offered. -/
def Obligations.ExecIsTheStepOfTheSpec : Prop :=
  ∀ (i : Instr) (s : State),
    let r := operation s.build s.status i
    let status := (s.status &&& ~~~r.clr) ||| r.flags
    (s.fault = true → exec i s = .fault .stopped) ∧
    (s.fault = false → r.flags &&& s.build.assertMask ≠ 0#5 →
      exec i s = .next { s with status := status, fcause := r.flags, fault := true, rsp := none }) ∧
    (s.fault = false → r.flags &&& s.build.assertMask = 0#5 →
      exec i s = .next { s with status := status, rsp := some { result := r.value, flags := r.flags } })

/-! ## MUL -/

/-- R82: the four outcomes of MUL in the order of the rule; the last result is the real product rounded toward zero to a
multiple of `2^-F`. -/
def Obligations.MulAnswersProductRoundedTowardZero : Prop :=
  ∀ (a b : Word) (s : State), s.fault = false →
    let f := s.build.radix.bits
    let m := mag a * mag b / 2 ^ f
    let neg := sgn a ^^ sgn b
    (a = 0x00000000#32 ∨ b = 0x00000000#32 → exec (.mul a b) s = .next (answersWith s 0x00000000#32 0#5)) ∧
    (a ≠ 0x00000000#32 → b ≠ 0x00000000#32 → 0x7FFFFFFF < m → selects s.build.assertMask flagOVF = false →
      exec (.mul a b) s = .next (answersWith s (if neg then 0x80000001#32 else 0x7FFFFFFF#32) flagOVF)) ∧
    (a ≠ 0x00000000#32 → b ≠ 0x00000000#32 → m = 0 → selects s.build.assertMask flagUNF = false →
      exec (.mul a b) s = .next (answersWith s 0x00000000#32 flagUNF)) ∧
    (a ≠ 0x00000000#32 → b ≠ 0x00000000#32 → 0 < m → m ≤ 0x7FFFFFFF →
      ∃ v : Word, exec (.mul a b) s = .next (answersWith s v 0#5) ∧ sint v = (if neg then -(m : Int) else (m : Int)) ∧
        |val s.build.radix v| ≤ |val s.build.radix a * val s.build.radix b| ∧
        |val s.build.radix a * val s.build.radix b| < |val s.build.radix v| + 1 / 2 ^ f ∧
        0 ≤ val s.build.radix v * (val s.build.radix a * val s.build.radix b))

/-- R81: the half-word decomposition computes the product of the magnitudes, its parts fit the widths the rule gives, and
shifting the parts before adding drops no other bit than shifting the sum. -/
def Obligations.HalfWordMultiplyIsExact : Prop :=
  ∀ (r : Radix) (a b : Word),
    let ua := mag a
    let ub := mag b
    ua ≤ 2 ^ 31 ∧ ub ≤ 2 ^ 31 ∧
    lowProduct ua ub ≤ (2 ^ 16 - 1) ^ 2 ∧ middleProduct ua ub < 2 ^ 33 ∧ highProduct ua ub ≤ 2 ^ 30 ∧
    halfWordProduct ua ub = ua * ub ∧
    shiftedPartials r.bits ua ub = halfWordProduct ua ub / 2 ^ r.bits

/-- R85: whenever the document's condition on the high partial product holds, MUL raises OVF; at radix 12 a
high partial product of 12 bits is enough; the converse fails, with the rule's three examples. -/
def Obligations.HighPartialProductConditionImpliesOverflow : Prop :=
  (∀ (r : Radix) (a b : Word), 32 - r.bits ≤ bitlen (highProduct (mag a) (mag b)) →
    maxMag < mag a * mag b / 2 ^ r.bits ∧ (mulResult r a b).flags = flagOVF) ∧
  (∀ a b : Word, 12 ≤ bitlen (highProduct (mag a) (mag b)) → (mulResult .r12 a b).flags = flagOVF) ∧
  (highProduct (mag 0x00FFFFFF#32) (mag 0x00800001#32) = 0x7F80 ∧
    (mulResult .r16 0x00FFFFFF#32 0x00800001#32).flags = flagOVF) ∧
  (highProduct (mag 0x00100000#32) (mag 0x00800000#32) = 0x800 ∧
    (mulResult .r12 0x00100000#32 0x00800000#32).flags = flagOVF) ∧
  (highProduct (mag 0x12345678#32) (mag 0x00009ABC#32) = 0 ∧
    (mulResult .r12 0x12345678#32 0x00009ABC#32).flags = flagOVF)

/-- Laws 1 to 3 of R88: commutative, odd in either sign, ONE an identity. -/
def Obligations.MulIsCommutativeOddAndUnital : Prop :=
  ∀ (r : Radix) (a b : Word),
    mulResult r a b = mulResult r b a ∧
    (a ≠ minPat → mulResult r (word (-(sint a))) b =
      { mulResult r a b with value := word (-(sint (mulResult r a b).value)) }) ∧
    (a ≠ minPat → mulResult r a (oneWord r) = { value := a, flags := 0#5 })

/-- Laws 4 and 5 of R88: monotone in magnitude; without a flag the result is below the product by less than `2^-F`. -/
def Obligations.MulIsMonotoneWithBoundedError : Prop :=
  ∀ (r : Radix) (a a' b : Word),
    (mag a ≤ mag a' → mag (mulResult r a b).value ≤ mag (mulResult r a' b).value) ∧
    ((mulResult r a b).flags = 0#5 →
      0 ≤ |val r a * val r b| - |val r (mulResult r a b).value| ∧
      |val r a * val r b| - |val r (mulResult r a b).value| < 1 / 2 ^ r.bits)

/-- R23: MINPAT is a legal operand of every operation; MUL and RECIP never produce it and stay in the symmetric range;
FLOOR, CEIL and TRUNC can produce it. -/
def Obligations.MinPatIsLegalAndNotProducedByMulOrRecip : Prop :=
  mag minPat = 2 ^ 31 ∧ (∀ w : Word, sint w ≠ 2 ^ 31) ∧
  (∀ (s : State) (b : Word), s.fault = false → s.build.assertMask = 0#5 →
    ∀ i : Instr, (i = .mul minPat b ∨ i = .mul b minPat ∨ i = .recip minPat ∨ i = .sqrt minPat ∨ i = .floor minPat ∨
        i = .ceil minPat ∨ i = .trunc minPat) →
      ∃ (v : Word) (f : FlagSet), exec i s = .next (answersWith s v f)) ∧
  (∀ (r : Radix) (a b : Word),
    -(0x7FFFFFFF : Int) ≤ sint (mulResult r a b).value ∧ (mulResult r a b).value ≠ minPat ∧
    -(0x7FFFFFFF : Int) ≤ sint (recipResult r a).value ∧ (recipResult r a).value ≠ minPat) ∧
  (∀ r : Radix, (floorResult r minPat).value = minPat ∧ (ceilResult r minPat).value = minPat ∧
    (truncResult r minPat).value = minPat)

/-! ## RECIP -/

/-- R92: the four outcomes of RECIP; the last result is the real reciprocal rounded toward zero to a multiple of
`2^-F`. -/
def Obligations.RecipAnswersReciprocalRoundedTowardZero : Prop :=
  ∀ (x : Word) (s : State), s.fault = false →
    let f := s.build.radix.bits
    let q := 2 ^ (2 * f) / mag x
    (x = 0x00000000#32 → selects s.build.assertMask flagDZ = false →
      exec (.recip x) s = .next (answersWith s 0x7FFFFFFF#32 flagDZ)) ∧
    (x ≠ 0x00000000#32 → 0x7FFFFFFF < q → selects s.build.assertMask flagOVF = false →
      exec (.recip x) s = .next (answersWith s (if sgn x then 0x80000001#32 else 0x7FFFFFFF#32) flagOVF)) ∧
    (x ≠ 0x00000000#32 → q = 0 → selects s.build.assertMask flagUNF = false →
      exec (.recip x) s = .next (answersWith s 0x00000000#32 flagUNF)) ∧
    (x ≠ 0x00000000#32 → 0 < q → q ≤ 0x7FFFFFFF →
      ∃ v : Word, exec (.recip x) s = .next (answersWith s v 0#5) ∧
        sint v = (if sgn x then -(q : Int) else (q : Int)) ∧
        |val s.build.radix v| ≤ |1 / val s.build.radix x| ∧
        |1 / val s.build.radix x| < |val s.build.radix v| + 1 / 2 ^ f) ∧
    (x ≠ 0x00000000#32 → (0x7FFFFFFF < q ↔ s.build.radix = .r16 ∧ (mag x = 1 ∨ mag x = 2)) ∧
      (q = 0 ↔ s.build.radix = .r12 ∧ 2 ^ 24 < mag x))

/-- R93: exactly when RECIP raises each flag, at each radix. -/
def Obligations.RecipRaisesEachFlagExactly : Prop :=
  ∀ (r : Radix) (x : Word),
    ((recipResult r x).flags = flagDZ ↔ x = 0x00000000#32) ∧
    ((recipResult r x).flags = flagOVF ↔
      r = .r16 ∧ (x = 0x00000001#32 ∨ x = 0x00000002#32 ∨ x = 0xFFFFFFFF#32 ∨ x = 0xFFFFFFFE#32)) ∧
    ((recipResult r x).flags = flagUNF ↔
      r = .r12 ∧ ((0x01000001#32 ≤ x ∧ x ≤ 0x7FFFFFFF#32) ∨ (0x80000000#32 ≤ x ∧ x ≤ 0xFEFFFFFF#32))) ∧
    ((recipResult r x).flags = 0#5 ∨ (recipResult r x).flags = flagDZ ∨ (recipResult r x).flags = flagOVF ∨
      (recipResult r x).flags = flagUNF)

/-- Laws 1, 5 and 6 of R97: odd; ZERO only with UNF; a reciprocal multiplied back is at most ONE and falls short of it by
at most `ceil(ux / 2^F)`. -/
def Obligations.RecipLawsWithMul : Prop :=
  ∀ (r : Radix) (x : Word),
    (x ≠ minPat → x ≠ zeroWord → recipResult r (word (-(sint x))) =
      { recipResult r x with value := word (-(sint (recipResult r x).value)) }) ∧
    ((recipResult r x).value = zeroWord → (recipResult r x).flags = flagUNF) ∧
    (0 < sint x → (recipResult r x).flags = 0#5 →
      2 ^ (2 * r.bits) - (mag x : Int) + 1 ≤ (mag x : Int) * sint (recipResult r x).value ∧
      (mag x : Int) * sint (recipResult r x).value ≤ 2 ^ (2 * r.bits) ∧
      2 ^ r.bits - (((mag x + 2 ^ r.bits - 1) / 2 ^ r.bits : Nat) : Int) ≤
        sint (mulResult r x (recipResult r x).value).value ∧
      sint (mulResult r x (recipResult r x).value).value ≤ 2 ^ r.bits)

/-- The restoring division of R99 ends with the quotient and the remainder, for every dividend and divisor; on the dividend
of RECIP that is the quotient of R92. -/
def Obligations.RestoringDivisionComputesTheQuotient : Prop :=
  (∀ (n dividend d : Nat), 0 < d → dividend < 2 ^ n →
    restoringDivide dividend d n (0, 0) = (dividend / d, dividend % d)) ∧
  (∀ (r : Radix) (x : Word), x ≠ 0x00000000#32 →
    (restoringDivide (2 ^ (2 * r.bits)) (mag x) (2 * r.bits + 1) (0, 0)).1 = 2 ^ (2 * r.bits) / mag x)

/-! ## SQRT -/

/-- R102: a negative operand gives ZERO with INV; any other gives the largest integer whose square is at most `x << F`,
which is the real root rounded down to a multiple of `2^-F`. -/
def Obligations.SqrtAnswersIntegerRoot : Prop :=
  (∀ (x : Word) (s : State), s.fault = false →
    let f := s.build.radix.bits
    (sgn x = true → selects s.build.assertMask flagINV = false →
      exec (.sqrt x) s = .next (answersWith s 0x00000000#32 flagINV)) ∧
    (sgn x = false →
      x.toNat * 2 ^ f < 2 ^ 47 ∧
      ∃ v : Word, exec (.sqrt x) s = .next (answersWith s v 0#5) ∧ v.toNat < 2 ^ 24 ∧
        v.toNat * v.toNat ≤ x.toNat * 2 ^ f ∧ x.toNat * 2 ^ f < (v.toNat + 1) * (v.toNat + 1) ∧
        0 ≤ val s.build.radix v ∧
        val s.build.radix v * val s.build.radix v ≤ val s.build.radix x ∧
        val s.build.radix x < (val s.build.radix v + 1 / 2 ^ f) * (val s.build.radix v + 1 / 2 ^ f))) ∧
  isqrt 0x00020000 * 2 ^ 8 = 0x00016A00 ∧ isqrt (0x00020000 * 2 ^ 16) = 0x00016A09

/-- Laws 3 to 6 of R106: monotone; in range; its square under MUL raises no OVF and is at most `x`, short of it by less than
`2r / 2^F + 1`; exact on perfect squares. -/
def Obligations.SqrtLawsWithMul : Prop :=
  ∀ (r : Radix) (x x' : Word), sgn x = false → sgn x' = false →
    let v := (sqrtResult r x).value
    (x.toNat ≤ x'.toNat → v.toNat ≤ (sqrtResult r x').value.toNat) ∧
    v.toNat ≤ (match r with
      | .r16 => 0x00B504F3
      | .r12 => 0x002D413C) ∧
    (mulResult r v v).flags ≠ flagOVF ∧
    (mulResult r v v).value.toNat ≤ x.toNat ∧
    x.toNat * 2 ^ r.bits < (mulResult r v v).value.toNat * 2 ^ r.bits + 2 * v.toNat + 2 ^ r.bits ∧
    (∀ n : Nat, n * n = x.toNat * 2 ^ r.bits → v.toNat = n) ∧
    (∀ k : Nat, x.toNat = k * k * 2 ^ r.bits → v.toNat = k * 2 ^ r.bits)

/-- The digit recurrence of R109 ends with the integer root and the remainder, and with 24 iterations on a radicand of SQRT
it is the root that SQRT answers. -/
def Obligations.DigitRecurrenceComputesTheRoot : Prop :=
  (∀ (n u : Nat), u < 4 ^ n →
    let rr := restoringRoot u n (0, 0)
    rr.1 * rr.1 ≤ u ∧ u < (rr.1 + 1) * (rr.1 + 1) ∧ rr.2 = u - rr.1 * rr.1) ∧
  (∀ u : Nat, u < 2 ^ 48 → (restoringRoot u 24 (0, 0)).1 = isqrt u)

/-! ## FLOOR, CEIL, TRUNC -/

/-- R111: FLOOR, opcode `0x4`, `b` ignored: the word masked, which is the floor of the value for either sign. -/
def Obligations.FloorAnswersTheFloor : Prop :=
  ∀ (x b : Word) (s : State), s.fault = false →
    decode (requestWord 0x4#4 x b) = .floor x ∧
    assemble s.build.radix (.floor (.hex x)) = some (requestWord 0x4#4 x 0#32) ∧
    exec (.floor x) s = .next (answersWith s (x &&& intMask s.build.radix) 0#5) ∧
    sint (x &&& intMask s.build.radix) = sint x / 2 ^ s.build.radix.bits * 2 ^ s.build.radix.bits ∧
    val s.build.radix (x &&& intMask s.build.radix) = (⌊val s.build.radix x⌋ : ℚ)

/-- R114: CEIL over the integers, saturating; without a flag its value is the ceiling; MINPAT is its own ceiling. -/
def Obligations.CeilAnswersTheCeiling : Prop :=
  ∀ (x : Word) (s : State), s.fault = false →
    let f := s.build.radix.bits
    let c := (sint x - 1) / 2 ^ f * 2 ^ f + 2 ^ f
    (0x7FFFFFFF < c → selects s.build.assertMask flagOVF = false →
      exec (.ceil x) s = .next (answersWith s 0x7FFFFFFF#32 flagOVF)) ∧
    (c ≤ 0x7FFFFFFF →
      exec (.ceil x) s = .next (answersWith s (word c) 0#5) ∧ sint (word c) = c ∧
      val s.build.radix (word c) = (⌈val s.build.radix x⌉ : ℚ) ∧
      word c = ((x - 1#32) &&& intMask s.build.radix) + oneWord s.build.radix) ∧
    -(2 ^ 31) ≤ c ∧ (x = 0x80000000#32 → c = -(2 ^ 31) ∧ word c = 0x80000000#32)

/-- R115: OVF exactly when `c > MAXMAG`, exactly when the operand is above MAXINT; the result is then MAXMAG and no other
flag is ever raised. -/
def Obligations.CeilOverflowsExactlyAboveMaxInt : Prop :=
  ∀ (r : Radix) (x : Word),
    ((ceilResult r x).flags = flagOVF ↔ (maxMag : Int) < ceilSum r x) ∧
    ((ceilResult r x).flags = flagOVF ↔ sint (maxIntWord r) < sint x) ∧
    ((ceilResult r x).flags = flagOVF ↔ (match r with
      | .r16 => 0x7FFF0001#32
      | .r12 => 0x7FFFF001#32) ≤ x ∧ x ≤ 0x7FFFFFFF#32) ∧
    ((ceilResult r x).flags = flagOVF → (ceilResult r x).value = 0x7FFFFFFF#32 ∧ ceilSum r x = 2 ^ 31) ∧
    ((ceilResult r x).flags = flagOVF ∨ (ceilResult r x).flags = 0#5) ∧
    ((ceilResult r x).flags = flagOVF ↔ (ceilResult r x).value &&& fracMask r ≠ 0#32) ∧
    (floorResult r x).value &&& fracMask r = 0#32 ∧ (truncResult r x).value &&& fracMask r = 0#32

/-- R117: TRUNC, opcode `0x6`, `b` ignored: the magnitude masked and the sign re-applied; the value rounded toward zero, the
floor from zero up and the ceiling below. -/
def Obligations.TruncAnswersTheValueRoundedTowardZero : Prop :=
  ∀ (x b : Word) (s : State), s.fault = false →
    let r := s.build.radix
    let v := sword (sgn x) (mag x / 2 ^ r.bits * 2 ^ r.bits)
    decode (requestWord 0x6#4 x b) = .trunc x ∧
    assemble r (.trunc (.hex x)) = some (requestWord 0x6#4 x 0#32) ∧
    exec (.trunc x) s = .next (answersWith s v 0#5) ∧
    mag x &&& (intMask r).toNat = mag x / 2 ^ r.bits * 2 ^ r.bits ∧
    val r v = (if sgn x then (⌈val r x⌉ : ℚ) else (⌊val r x⌋ : ℚ)) ∧
    (sgn x = false → v = x &&& intMask r) ∧
    (x = 0x80000000#32 → v = 0x80000000#32)

/-- Laws 1 to 4 of R120: the order of the three results, their agreement on integers, the gap elsewhere, TRUNC as one of the
other two. -/
def Obligations.RoundingsBracketTheOperand : Prop :=
  ∀ (r : Radix) (x : Word),
    let fl := (floorResult r x).value
    let ce := (ceilResult r x).value
    let tr := (truncResult r x).value
    let clean := (ceilResult r x).flags = 0#5
    (sint fl ≤ sint tr ∧ sint fl ≤ sint x) ∧ (clean → sint tr ≤ sint ce ∧ sint x ≤ sint ce) ∧
    (x &&& fracMask r = 0#32 → fl = x ∧ ce = x ∧ tr = x) ∧
    (x &&& fracMask r ≠ 0#32 → clean → sint ce = sint fl + 2 ^ r.bits) ∧
    (0 ≤ sint x → tr = fl) ∧ (sint x < 0 → clean ∧ tr = ce)

/-- Laws 5 to 7 of R120: idempotent; CEIL mirrors FLOOR and TRUNC is odd; each result is less than ONE away. -/
def Obligations.RoundingsAreIdempotentAndMirrored : Prop :=
  ∀ (r : Radix) (x : Word),
    let fl := (floorResult r x).value
    let ce := (ceilResult r x).value
    let tr := (truncResult r x).value
    let clean := (ceilResult r x).flags = 0#5
    (floorResult r fl).value = fl ∧ (truncResult r tr).value = tr ∧ (clean → ceilResult r ce = ceilResult r x) ∧
    (¬clean → ceilResult r ce = ceilResult r x) ∧
    (x ≠ minPat → clean → sint ce = -(sint (floorResult r (word (-(sint x)))).value)) ∧
    (x ≠ minPat → (truncResult r (word (-(sint x)))).value = word (-(sint tr))) ∧
    |sint fl - sint x| < 2 ^ r.bits ∧ |sint ce - sint x| < 2 ^ r.bits ∧ |sint tr - sint x| < 2 ^ r.bits

/-! ## Control operations and reserved opcodes -/

/-- R127: RDST, opcode `0xC`, operands ignored: STATUS in bits `[4:0]`, zeros above, no state changed but the response; two in
a row return the same value. -/
def Obligations.RdstReadsStatus : Prop :=
  ∀ (a b : Word) (s : State), s.fault = false →
    decode (requestWord 0xC#4 a b) = .rdst ∧ assemble s.build.radix .rdst = some (requestWord 0xC#4 0#32 0#32) ∧
    exec .rdst s = .next { s with rsp := some { result := s.status.setWidth 32, flags := 0#5 } } ∧
    (s.status.setWidth 32 : Word).toNat = s.status.toNat ∧
    (∀ t : State, exec .rdst s = .next t → ∃ t' : State, exec .rdst t = .next t' ∧ t'.rsp = t.rsp ∧ t'.status = s.status) ∧
    (transactAll { radix := .r16, assertMask := 0#5 } resetRegisters
      [0x1_00C80000_00C80000#68, 0x3_FFFF0000_00000000#68, 0xC_00000000_00000000#68]).2.getLast? =
        some (some { result := 0x00000009#32, flags := 0#5 })

/-- R128: CLRST, opcode `0xD`, mask `a[4:0]`: the old STATUS is the result; exactly the masked bits become 0, in the same
step; mask 0 is the same as RDST; `clrall` is mask `0x1F`. -/
def Obligations.ClrstReadsThenClears : Prop :=
  ∀ (a b : Word) (m : FlagSet) (s : State), s.fault = false →
    decode (requestWord 0xD#4 a b) = .clrst (a.extractLsb' 0 5) ∧
    (∃ t : State, exec (.clrst m) s = .next t ∧
      t = { s with status := s.status &&& ~~~m, rsp := some { result := s.status.setWidth 32, flags := 0#5 } } ∧
      ∀ k : Nat, k < 5 → t.status.getLsbD k = (s.status.getLsbD k && !m.getLsbD k)) ∧
    exec (.clrst 0#5) s = exec .rdst s ∧
    assemble s.build.radix .clrall = some (requestWord 0xD#4 0x1F#32 0#32)

/-- R129 with R32: RDCFG returns CONFIG, whose fields are RADIX, ASSERT_MASK and VERSION with zeros elsewhere; nothing else
changes. -/
def Obligations.RdcfgReadsTheBuild : Prop :=
  ∀ (a b : Word) (s : State), s.fault = false →
    decode (requestWord 0xE#4 a b) = .rdcfg ∧ assemble s.build.radix .rdcfg = some (requestWord 0xE#4 0#32 0#32) ∧
    exec .rdcfg s = .next { s with rsp := some { result := configWord s.build, flags := 0#5 } } ∧
    (configWord s.build).extractLsb' 0 6 = (match s.build.radix with
      | .r16 => 0b010000#6
      | .r12 => 0b001100#6) ∧
    (configWord s.build).extractLsb' 6 2 = 0#2 ∧ (configWord s.build).extractLsb' 8 5 = s.build.assertMask ∧
    (configWord s.build).extractLsb' 13 3 = 0#3 ∧ (configWord s.build).extractLsb' 16 8 = 0x10#8 ∧
    (configWord s.build).extractLsb' 24 8 = 0#8 ∧
    configWord { radix := .r16, assertMask := 0#5 } = 0x00100010#32 ∧
    configWord { radix := .r12, assertMask := 0#5 } = 0x0010000C#32 ∧
    configWord { radix := .r16, assertMask := 0b00011#5 } = 0x00100310#32

/-- R131: each of the seven reserved opcodes decodes, whatever its operands, to an operation that answers ZERO with ILL and
changes nothing but bit 4 of STATUS; when ASSERT_MASK selects ILL it stops the unit instead. -/
def Obligations.ReservedOpcodesAnswerZeroWithIll : Prop :=
  (∀ a b : Word,
    decode (requestWord 0x0#4 a b) = .illegal0 ∧ decode (requestWord 0x7#4 a b) = .illegal7 ∧
    decode (requestWord 0x8#4 a b) = .illegal8 ∧ decode (requestWord 0x9#4 a b) = .illegal9 ∧
    decode (requestWord 0xA#4 a b) = .illegalA ∧ decode (requestWord 0xB#4 a b) = .illegalB ∧
    decode (requestWord 0xF#4 a b) = .illegalF) ∧
  (∀ s : State, s.fault = false → s.build.assertMask.getLsbD 4 = false →
    exec .illegal0 s = .next (answersWith s 0x00000000#32 0b10000#5) ∧
    exec .illegal7 s = .next (answersWith s 0x00000000#32 0b10000#5) ∧
    exec .illegal8 s = .next (answersWith s 0x00000000#32 0b10000#5) ∧
    exec .illegal9 s = .next (answersWith s 0x00000000#32 0b10000#5) ∧
    exec .illegalA s = .next (answersWith s 0x00000000#32 0b10000#5) ∧
    exec .illegalB s = .next (answersWith s 0x00000000#32 0b10000#5) ∧
    exec .illegalF s = .next (answersWith s 0x00000000#32 0b10000#5)) ∧
  (∀ (i : Instr) (s : State), s.fault = false → s.build.assertMask.getLsbD 4 = true → isReserved (opcodeOf i) = true →
    exec i s = .next (stopsWith s 0b10000#5)) ∧
  responseWord { result := 0x00000000#32, flags := 0b10000#5 } = 0x10_00000000#37 ∧
  (∀ (r : Radix) (op : BitVec 4), isReserved op = true → assemble r (.illegal op) = some (requestWord op 0#32 0#32))

/-! ## Flags -/

/-- R28 and R144: a request raises at most one flag; STATUS accumulates it; nothing but CLRST and reset clears a bit; STATUS
can hold several. -/
def Obligations.StatusIsSticky : Prop :=
  (∀ (i : Instr) (s t : State), exec i s = .next t →
    ∃ f : FlagSet, isZeroOrOneHot f = true ∧ (∀ r : Response, t.rsp = some r → r.flags = f) ∧
      (t.fault = true → t.fcause = f) ∧ ((∀ m : FlagSet, i ≠ .clrst m) → t.status = s.status ||| f)) ∧
  (∀ (s t : State) (k : Nat), step s = .next t → s.status.getLsbD k = true → t.status.getLsbD k = false →
    (rstPin s = true ∧ t.status = 0#5) ∨
    ∃ (w : RequestWord) (m : FlagSet), accepts s = some w ∧ decode w = .clrst m ∧ m.getLsbD k = true) ∧
  (∃ (b : Build) (v : List RequestWord), (transactAll b resetRegisters v).1.status = 0b11111#5)

/-- R18: the response of an arithmetic operation depends on the radix and the request alone; and of all operations only RDST
and CLRST read STATUS. -/
def Obligations.ArithmeticResponsesArePure : Prop :=
  (∀ (i : Instr) (s s' t t' : State), isArithmetic i = true → s.build.radix = s'.build.radix →
    exec i s = .next t → exec i s' = .next t' → t.fault = false → t'.fault = false → t.rsp = t'.rsp) ∧
  (∀ (i : Instr) (s t : State) (x : FlagSet), i ≠ .rdst → (∀ m : FlagSet, i ≠ .clrst m) → exec i s = .next t →
    ∃ t' : State, exec i { s with status := x } = .next t' ∧ t'.rsp = t.rsp ∧ t'.fault = t.fault ∧ t'.fcause = t.fcause)

/-- R141: the flag each operation raises and the value beside it, in the rule's own conditions; FLOOR, TRUNC and the control
operations raise nothing. -/
def Obligations.EachConditionRaisesItsFlag : Prop :=
  ∀ (b : Build) (st : FlagSet) (x y : Word) (m : FlagSet),
    let F := b.radix.bits
    ((operation b st (.mul x y)).flags = flagOVF ↔ maxMag < mag x * mag y / 2 ^ F) ∧
    ((operation b st (.mul x y)).flags = flagUNF ↔ x ≠ zeroWord ∧ y ≠ zeroWord ∧ mag x * mag y / 2 ^ F = 0) ∧
    ((operation b st (.recip x)).flags = flagOVF ↔ x ≠ zeroWord ∧ maxMag < 2 ^ (2 * F) / mag x) ∧
    ((operation b st (.recip x)).flags = flagOVF ↔ b.radix = .r16 ∧ (mag x = 1 ∨ mag x = 2)) ∧
    ((operation b st (.recip x)).flags = flagUNF ↔ x ≠ zeroWord ∧ 2 ^ (2 * F) / mag x = 0) ∧
    ((operation b st (.recip x)).flags = flagUNF ↔ b.radix = .r12 ∧ 2 ^ 24 < mag x) ∧
    ((operation b st (.recip x)).flags = flagDZ ↔ x = zeroWord) ∧
    ((operation b st (.sqrt x)).flags = flagINV ↔ sgn x = true) ∧
    ((operation b st (.ceil x)).flags = flagOVF ↔ sint (maxIntWord b.radix) < sint x) ∧
    ((operation b st (.mul x y)).flags = flagOVF → (operation b st (.mul x y)).value = sat (sgn x ^^ sgn y)) ∧
    ((operation b st (.recip x)).flags = flagOVF → (operation b st (.recip x)).value = sat (sgn x)) ∧
    ((operation b st (.ceil x)).flags = flagOVF → (operation b st (.ceil x)).value = 0x7FFFFFFF#32) ∧
    (∀ i : Instr, (operation b st i).flags = flagILL ↔ isReserved (opcodeOf i) = true) ∧
    ((operation b st (.mul x y)).flags ∈ [0#5, flagOVF, flagUNF]) ∧
    ((operation b st (.recip x)).flags ∈ [0#5, flagOVF, flagUNF, flagDZ]) ∧
    ((operation b st (.sqrt x)).flags ∈ [0#5, flagINV]) ∧ ((operation b st (.ceil x)).flags ∈ [0#5, flagOVF]) ∧
    (∀ i ∈ [Instr.floor x, .trunc x, .rdst, .clrst m, .rdcfg], (operation b st i).flags = 0#5) ∧
    (∀ i : Instr, (operation b st i).flags ≠ 0#5 →
      fallbackOk { result := (operation b st i).value, flags := (operation b st i).flags } = true)

/-! ## The fault -/

/-- R146: entering the fault. A request is accepted only when every earlier one was answered and its response taken. The flag is accumulated, FCAUSE takes it, FAULT is set, no response is offered, the pins show it
and nothing more is accepted. -/
def Obligations.SelectedFlagEntersTheFault : Prop :=
  (∀ (s : State) (w : RequestWord), accepts s = some w → s.rsp = none ∧ s.fault = false) ∧
  ∀ (i : Instr) (s : State), s.fault = false →
    let f := (operation s.build s.status i).flags
    f &&& s.build.assertMask ≠ 0#5 →
    exec i s = .next (stopsWith s f) ∧ isOneHot f = true ∧
    faultPin (stopsWith s f) = true ∧ faultFlags (stopsWith s f) = f ∧
    rspValid (stopsWith s f) = false ∧ reqReady (stopsWith s f) = false ∧ accepts (stopsWith s f) = none

/-- Where the arithmetic operations stop the unit: each condition of R141 whose flag is selected. -/
def Obligations.EachSelectedConditionStopsTheUnit : Prop :=
  ∀ (x y : Word) (s : State), s.fault = false →
    let F := s.build.radix.bits
    (selects s.build.assertMask flagOVF = true →
      (maxMag < mag x * mag y / 2 ^ F → exec (.mul x y) s = .next (stopsWith s flagOVF)) ∧
      (x ≠ zeroWord → maxMag < 2 ^ (2 * F) / mag x → exec (.recip x) s = .next (stopsWith s flagOVF)) ∧
      (sint (maxIntWord s.build.radix) < sint x → exec (.ceil x) s = .next (stopsWith s flagOVF))) ∧
    (selects s.build.assertMask flagUNF = true →
      (x ≠ zeroWord → y ≠ zeroWord → mag x * mag y / 2 ^ F = 0 → exec (.mul x y) s = .next (stopsWith s flagUNF)) ∧
      (x ≠ zeroWord → 2 ^ (2 * F) / mag x = 0 → exec (.recip x) s = .next (stopsWith s flagUNF))) ∧
    (selects s.build.assertMask flagDZ = true → exec (.recip zeroWord) s = .next (stopsWith s flagDZ)) ∧
    (selects s.build.assertMask flagINV = true → sgn x = true → exec (.sqrt x) s = .next (stopsWith s flagINV))

/-- R148, the debug build `0b00011`: MUL, RECIP (of a value other than zero) and CEIL can fault; RECIP of zero, SQRT, the
reserved opcodes and all other operations cannot. -/
def Obligations.DebugBuildFaultsOnlyOnOverflowAndUnderflow : Prop :=
  ∀ s : State, s.fault = false → s.build.assertMask = 0b00011#5 →
    (∃ (x y : Word) (t : State), exec (.mul x y) s = .next t ∧ t.fcause = flagOVF ∧ t.fault = true) ∧
    (∃ (x y : Word) (t : State), exec (.mul x y) s = .next t ∧ t.fcause = flagUNF ∧ t.fault = true) ∧
    (∃ (x : Word) (t : State), exec (.recip x) s = .next t ∧ t.fault = true ∧
      t.fcause = (if s.build.radix = .r16 then flagOVF else flagUNF)) ∧
    (∃ (x : Word) (t : State), exec (.ceil x) s = .next t ∧ t.fcause = flagOVF ∧ t.fault = true) ∧
    (∀ (i : Instr) (t : State), exec i s = .next t → t.fault = true →
      (∃ x y : Word, i = .mul x y) ∨ (∃ x : Word, x ≠ zeroWord ∧ i = .recip x) ∨ (∃ x : Word, i = .ceil x))

/-- R30: FAULT is 0 after reset, becomes 1 exactly when an accepted request raises a selected flag, stays 1 until reset; while it
is 1 no request is accepted and no response is produced; with ASSERT_MASK 0 it never becomes 1. -/
def Obligations.FaultIsSetOnlyBySelectedFlagsAndClearedOnlyByReset : Prop :=
  (∀ (b : Build) (es : List Sample), (State.resetOf b es).fault = false) ∧
  (∀ s t : State, step s = .next t → s.fault = false →
    (t.fault = true ↔ ∃ w : RequestWord, accepts s = some w ∧
      (operation s.build s.status (decode w)).flags &&& s.build.assertMask ≠ 0#5)) ∧
  (∀ s t : State, step s = .next t → s.fault = true → t.fault = true ∨ (rstPin s = true ∧ t.fault = false)) ∧
  (∀ s : State, s.fault = true → reqReady s = false ∧ accepts s = none ∧
    ∀ t : State, step s = .next t → s.rsp = none → t.rsp = none) ∧
  (∀ s t : State, step s = .next t → s.fault = false → s.build.assertMask = 0#5 → t.fault = false)

/-- R31: FCAUSE is 0 after reset and is written at the moment FAULT becomes 1, with the flags of the request that faulted; no
other edge but reset changes it; it is what `fault_flags` shows. -/
def Obligations.FcauseIsWrittenOnlyAtTheFault : Prop :=
  (∀ (b : Build) (es : List Sample), (State.resetOf b es).fcause = 0#5) ∧
  (∀ s t : State, step s = .next t → rstPin s = false →
    (t.fault = s.fault → t.fcause = s.fcause) ∧
    (s.fault = false → t.fault = true → ∃ w : RequestWord, accepts s = some w ∧
      t.fcause = (operation s.build s.status (decode w)).flags)) ∧
  (∀ s : State, faultFlags s = s.fcause)

/-- After a fault nothing changes until reset (R147): no request is accepted, none is offered a response, no register changes, and
the reset edge gives the reset state. That there is no next state when no reset is to come, and a next state with the same registers
when one is, is the model's reading of R158 and R147 (log entry 6). -/
def Obligations.StoppedUnitChangesNothingUntilReset : Prop :=
  ∀ s : State, s.fault = true →
    (resetToCome s.inputs = false → step s = .fault .stopped) ∧
    (∀ i : Instr, exec i s = .fault .stopped) ∧ reqReady s = false ∧ (s.good = true → rspValid s = false) ∧
    (∀ (e : Sample) (rest : List Sample), s.inputs = e :: rest →
      (e.rst = true → step s = .next (State.resetOf s.build rest)) ∧
      (e.rst = false → resetToCome rest = true → step s = .next { s with inputs := rest }))

/-- R145 and R158, the optimized build: every request is answered, no request faults, and a sequence of any length has a
response sequence of the same length. -/
def Obligations.OptimizedBuildAnswersEverything : Prop :=
  (∀ (i : Instr) (s : State), s.fault = false → optimized s.build = true →
    ∃ (t : State) (r : Response), exec i s = .next t ∧ t.rsp = some r ∧ t.fault = false ∧ t.fcause = s.fcause) ∧
  (∀ (b : Build) (g : Registers) (ws : List RequestWord), optimized b = true → g.fault = false →
    (transactAll b g ws).1.fault = false ∧ (transactAll b g ws).2.length = ws.length ∧
    ∀ o ∈ (transactAll b g ws).2, o.isSome = true)

/-! ## Reset and ports -/

/-- R37: every piece of state after reset, on any build; the build is unaffected; `req_ready` is 0 while reset is asserted and 1
after (R160); no response is meaningful. That `rsp_valid` falls in the very cycle in which `rst` is 1, and that the payload is then absent, is the
model's reading of R160 and R37 (log entry 8). -/
def Obligations.ResetLeavesTheStatedValues : Prop :=
  ∀ (s : State) (e : Sample) (rest : List Sample), s.inputs = e :: rest → e.rst = true →
    reqReady s = false ∧ rspValid s = false ∧
    ∃ t : State, step s = .next t ∧ t.status = 0b00000#5 ∧ t.fault = false ∧ t.fcause = 0b00000#5 ∧ t.rsp = none ∧
      t.build = s.build ∧ configWord t.build = configWord s.build ∧ t.inputs = rest ∧
      rspValid t = false ∧ rspPayload t = none ∧ faultPin t = false ∧ (rstPin t = false → reqReady t = true)

/-- At an edge with `rst = 1` nothing else happens: the next state does not depend on the registers, the
response offered, the request standing, or the other pins (R161, R162). That a standing request is forgotten is the model's reading
(log entry 5). -/
def Obligations.ResetWinsOverEverything : Prop :=
  ∀ (s s' : State) (e e' : Sample) (rest : List Sample), s.inputs = e :: rest → s'.inputs = e' :: rest →
    e.rst = true → e'.rst = true → s.build = s'.build →
    step s = step s' ∧ accepts s = none ∧ step s = .next (State.resetOf s.build rest)

/-- While a response is offered nothing is accepted and no register changes, and the response stays, unchanged, until the edge at which
it is taken (R44 (a), (d), R52). That a request raised meanwhile is remembered is the model's (log entry 5). -/
def Obligations.OfferedResponseStaysUntilTaken : Prop :=
  ∀ (s t : State) (r : Response) (e : Sample) (rest : List Sample), s.rsp = some r → s.inputs = e :: rest →
    e.rst = false → s.fault = false → step s = .next t →
    reqReady s = false ∧ accepts s = none ∧ rspPayload s = some r ∧ registersOf t = registersOf s ∧
    t.held = e.req ∧ (e.rspReady = false → t.rsp = some r) ∧ (e.rspReady = true → t.rsp = none)

/-- `req_ready` does not depend on `req_valid` or the payload, nor `rsp_valid` on `rsp_ready` (R44 (b)). -/
def Obligations.ReadyAndValidDoNotLookAcross : Prop :=
  ∀ (s : State) (e e' : Sample) (rest : List Sample), e.rst = e'.rst →
    reqReady { s with inputs := e :: rest } = reqReady { s with inputs := e' :: rest } ∧
    rspValid { s with inputs := e :: rest } = rspValid { s with inputs := e' :: rest } ∧
    rspPayload { s with inputs := e :: rest } = rspPayload { s with inputs := e' :: rest }

/-- An accepted request gets exactly one response at its edge unless it faults; no other edge produces one (R41). That the response
is there right after the edge is the model's (log entry 2). -/
def Obligations.EachAcceptedRequestGetsOneResponse : Prop :=
  ∀ s t : State, step s = .next t →
    (∀ w : RequestWord, accepts s = some w →
      (t.fault = false ∧ ∃ r : Response, t.rsp = some r) ∨ (t.fault = true ∧ t.rsp = none)) ∧
    (accepts s = none → t.rsp = none ∨ t.rsp = s.rsp)

/-- The only refusal of a step is that of a requester that changed or dropped a request it had raised (R43 (a), U1). Where the
duty lapses (reset, a stopped unit) is the model's choice (log entry 5). -/
def Obligations.OnlyAChangedRequestIsRefused : Prop :=
  ∀ (s : State) (c : Refusal), step s = .refused c ↔
    c = .requestChanged ∧ s.fault = false ∧
    ∃ (e : Sample) (rest : List Sample) (q : RequestWord), s.inputs = e :: rest ∧ e.rst = false ∧ s.held = some q ∧
      e.req ≠ some q

/-- The only fault of a step is that of a stopped unit with no reset to come (R17, R147, R158; log entry 6). -/
def Obligations.OnlyAStoppedUnitHasNoStep : Prop :=
  ∀ (s : State) (c : Fault), step s = .fault c ↔ c = .stopped ∧ s.fault = true ∧ resetToCome s.inputs = false

/-- An idle unit waits: an edge without reset and without a request changes nothing but the pins consumed (R136, R157). That the
pins are idle where none are listed is the model's choice (log entry 4). -/
def Obligations.IdleUnitWaits : Prop :=
  ∀ s : State, s.fault = false →
    (s.inputs = [] → step s = .next s) ∧
    (∀ (ready : Bool) (rest : List Sample), s.rsp = none → s.held = none →
      s.inputs = { rst := false, req := none, rspReady := ready } :: rest → step s = .next { s with inputs := rest })

/-! ## Invariants and the transaction view -/

/-- Every edge keeps the good relation between the registers and the response port: FCAUSE 0 while FAULT is 0 and one selected,
accumulated flag while it is 1; an offered response has zero or one flag, its fallback value and its flag in STATUS. -/
def Obligations.EveryStepKeepsTheStateGood : Prop :=
  ∀ s t : State, s.good = true → step s = .next t → t.good = true

/-- The reset state is good, on every build and whatever the requester will drive. -/
def Obligations.ResetStateIsGood : Prop :=
  State.reset.good = true ∧ ∀ (b : Build) (es : List Sample), (State.resetOf b es).good = true

/-- RADIX and ASSERT_MASK are arguments of the step and no part of its state (R36): the step, a request executed, and a run of any
length on a state with the build beside it are those of the machine of that build, whose state holds no parameter, with the build
put back; every build has the one reset state. So no edge changes the build (R163). Each edge consumes one sample of the pins, which is
the model's form of the outside world (log entry 3); the pair is the model's form of the host's one argument (log entry 1). -/
def Obligations.BuildNeverChanges : Prop :=
  (∀ s t : State, step s = .next t → t.build = s.build ∧ t.inputs = s.inputs.tail) ∧
  (∀ (b : Build) (u : UnitState), step { toUnitState := u, build := b } = withBuild b (unitStep b u)) ∧
  (∀ (b : Build) (i : Instr) (u : UnitState), exec i { toUnitState := u, build := b } = withBuild b (unitExec b i u)) ∧
  (∀ (b : Build) (k : Nat) (u : UnitState),
    Host.Core.run core k { toUnitState := u, build := b } = withBuild b (Host.Core.run (coreOn b) k u)) ∧
  (∀ b b' : Build, (coreOn b).reset = (coreOn b').reset) ∧
  (∀ (b : Build), State.resetOf b [] = { toUnitState := (coreOn b).reset, build := b }) ∧ core.reset = State.reset

/-- The pins refine the transaction view of R45: over any run of edges without reset, the registers are those of the step of R17
applied in order to the accepted requests, and each of these was answered as that step answers it. The edges are those of the model,
without latency (log entry 2). -/
def Obligations.PinsRefineTheTransactionView : Prop :=
  ∀ (k : Nat) (s t : State), s.fault = false → noResetIn k s = true → Host.Core.run core k s = .next t →
    registersOf t = (transactAll s.build (registersOf s) (acceptedIn k s)).1 ∧
    answeredIn k s = (transactAll s.build (registersOf s) (acceptedIn k s)).2

/-- The use of CLRST and RDST of R53, on an optimized build: after STATUS was cleared, a group of requests without a CLRST leaves
in STATUS exactly the union of the flags of its responses, so RDST then returns 0 exactly when no response of the group had a
flag. -/
def Obligations.StatusReportsAGroupOfRequests : Prop :=
  ∀ (b : Build) (g : Registers) (ws : List RequestWord), optimized b = true → g.fault = false → g.status = 0#5 →
    (∀ w ∈ ws, opcodeField w ≠ 0xD#4) →
    let out := transactAll b g ws
    out.1.status = (out.2.filterMap id).foldl (fun acc r => acc ||| r.flags) 0#5 ∧
    ((rdstResult out.1.status).value = 0#32 ↔ ∀ r ∈ out.2.filterMap id, r.flags = 0#5)

end
end

