-- ==== Sys2Proof/Laws/Arithmetic.lean ====
section
/-! SUPPORT. The small facts about signs, magnitudes and words that every arithmetic claim uses. -/

namespace Sys2Proof.Machine

theorem sint_lower (w : Word) : -(2 ^ 31 : Int) ≤ sint w := by
  have := BitVec.le_toInt w
  simpa [sint] using this

theorem sint_upper (w : Word) : sint w < 2 ^ 31 := by
  have := BitVec.toInt_lt (x := w)
  simpa [sint] using this

/-- A word made from an integer in range has that integer as its value. -/
theorem sint_word {z : Int} (h1 : -(2 ^ 31 : Int) ≤ z) (h2 : z < 2 ^ 31) : sint (word z) = z := by
  unfold sint word
  rw [BitVec.toInt_ofInt]
  exact Int.bmod_eq_of_le (by simpa using h1) (by simpa using h2)

@[simp] theorem word_sint (w : Word) : word (sint w) = w := by
  simp [word, sint]

theorem sgn_iff (w : Word) : sgn w = true ↔ sint w < 0 := by
  unfold sgn sint
  rw [BitVec.msb_eq_toInt]
  simp

theorem sgn_false_iff (w : Word) : sgn w = false ↔ 0 ≤ sint w := by
  have := sgn_iff w
  cases h : sgn w <;> simp_all

theorem mag_of_nonneg {w : Word} (h : 0 ≤ sint w) : (mag w : Int) = sint w := by
  unfold mag; omega

theorem mag_of_neg {w : Word} (h : sint w < 0) : (mag w : Int) = -sint w := by
  unfold mag; omega

/-- A value is its sign applied to its magnitude. -/
theorem sint_eq_sign_mag (w : Word) : sint w = if sgn w then -(mag w : Int) else (mag w : Int) := by
  by_cases h : sgn w = true
  · rw [if_pos h, mag_of_neg ((sgn_iff w).mp h)]; omega
  · rw [if_neg h, mag_of_nonneg ((sgn_false_iff w).mp (by simpa using h))]

@[simp] theorem sword_sgn_mag (w : Word) : sword (sgn w) (mag w) = w := by
  have h := sint_eq_sign_mag w
  unfold sword
  split <;> rename_i hs <;> simp only [hs, if_true] at h
  · rw [← h, word_sint]
  · have h' : sint w = (mag w : Int) := by simpa using h
    rw [← h', word_sint]

/-- The value of a sign applied to a magnitude that fits. -/
theorem sint_sword {s : Bool} {m : Nat} (h : m ≤ maxMag) : sint (sword s m) = if s then -(m : Int) else (m : Int) := by
  unfold maxMag at h
  unfold sword
  split <;> exact sint_word (by omega) (by omega)

theorem mag_pos_iff (w : Word) : 0 < mag w ↔ w ≠ zeroWord := by
  constructor
  · rintro h rfl
    simp [mag, sint, zeroWord] at h
  · intro h
    by_contra hc
    have h0 : sint w = 0 := by unfold mag at hc; omega
    apply h
    rw [← word_sint w, h0]
    rfl

@[simp] theorem mag_zero : mag zeroWord = 0 := rfl

theorem toNat_of_nonneg {w : Word} (h : sgn w = false) : (w.toNat : Int) = sint w := by
  unfold sgn at h
  unfold sint
  rw [BitVec.toInt_eq_msb_cond, h]
  simp

theorem bits_le (r : Radix) : r.bits ≤ 16 := by cases r <;> decide

theorem bits_pos (r : Radix) : 0 < r.bits := by cases r <;> decide

end Sys2Proof.Machine
end

