-- ==== Sys2Proof/Laws/Decode.lean ====
section
/-! SUPPORT. The fields of a request word in numbers, and a request word under the masks of the four formats. -/

namespace Sys2Proof
/-- Concatenation in numbers. -/
theorem append_toNat {n m : Nat} (x : BitVec n) (y : BitVec m) : (x ++ y).toNat = x.toNat * 2 ^ m + y.toNat := by
  rw [BitVec.toNat_append, ← Nat.shiftLeft_add_eq_or_of_lt y.isLt, Nat.shiftLeft_eq]

theorem requestWord_toNat (op : BitVec 4) (a b : Word) :
    (requestWord op a b).toNat = op.toNat * 2 ^ 64 + a.toNat * 2 ^ 32 + b.toNat := by
  have h : (requestWord op a b).toNat = ((op ++ a) ++ b).toNat := rfl
  rw [h, append_toNat, append_toNat]
  omega

theorem opcodeField_toNat (w : RequestWord) : (opcodeField w).toNat = w.toNat / 2 ^ 64 := by
  have := w.isLt
  simp only [opcodeField, BitVec.extractLsb'_toNat, Nat.shiftRight_eq_div_pow]
  omega

theorem operandA_toNat (w : RequestWord) : (operandA w).toNat = w.toNat / 2 ^ 32 % 2 ^ 32 := by
  simp only [operandA, BitVec.extractLsb'_toNat, Nat.shiftRight_eq_div_pow]

theorem operandB_toNat (w : RequestWord) : (operandB w).toNat = w.toNat % 2 ^ 32 := by
  simp [operandB, BitVec.extractLsb'_toNat]

theorem opcodeField_requestWord (op : BitVec 4) (a b : Word) : opcodeField (requestWord op a b) = op := by
  have ha := a.isLt
  have hb := b.isLt
  apply BitVec.eq_of_toNat_eq
  rw [opcodeField_toNat, requestWord_toNat]
  omega

theorem operandA_requestWord (op : BitVec 4) (a b : Word) : operandA (requestWord op a b) = a := by
  have ha := a.isLt
  have hb := b.isLt
  apply BitVec.eq_of_toNat_eq
  rw [operandA_toNat, requestWord_toNat]
  omega

theorem operandB_requestWord (op : BitVec 4) (a b : Word) : operandB (requestWord op a b) = b := by
  have hb := b.isLt
  apply BitVec.eq_of_toNat_eq
  rw [operandB_toNat, requestWord_toNat]
  omega

/-- Every request word is made of its three fields. -/
theorem requestWord_of_fields (w : RequestWord) : requestWord (opcodeField w) (operandA w) (operandB w) = w := by
  have hw := w.isLt
  apply BitVec.eq_of_toNat_eq
  rw [requestWord_toNat, opcodeField_toNat, operandA_toNat, operandB_toNat]
  omega

theorem requestWord_and (op op' : BitVec 4) (a a' b b' : Word) :
    requestWord op a b &&& requestWord op' a' b' = requestWord (op &&& op') (a &&& a') (b &&& b') := by
  have h : (op ++ a ++ b) &&& (op' ++ a' ++ b') = (op &&& op') ++ (a &&& a') ++ (b &&& b') := by
    rw [BitVec.and_append, BitVec.and_append]
  exact h

theorem readBits_B : readBits .B = requestWord 0xF#4 0xFFFFFFFF#32 0xFFFFFFFF#32 := by decide

theorem readBits_U : readBits .U = requestWord 0xF#4 0xFFFFFFFF#32 0#32 := by decide

theorem readBits_M : readBits .M = requestWord 0xF#4 0x1F#32 0#32 := by decide

theorem readBits_N : readBits .N = requestWord 0xF#4 0#32 0#32 := by decide

/-- A canonical word, format by format (R61). -/
theorem canonicalWord_requestWord (op : BitVec 4) (a b : Word) :
    canonicalWord (requestWord op a b) =
      match formatOf op with
      | .B => requestWord op a b
      | .U => requestWord op a 0#32
      | .M => requestWord op (a &&& 0x1F#32) 0#32
      | .N => requestWord op 0#32 0#32 := by
  have h4 : op &&& 0xF#4 = op := BitVec.and_allOnes
  have ha : a &&& 0xFFFFFFFF#32 = a := BitVec.and_allOnes
  have hb : b &&& 0xFFFFFFFF#32 = b := BitVec.and_allOnes
  unfold canonicalWord
  rw [opcodeField_requestWord]
  cases formatOf op
  · rw [readBits_B, requestWord_and, h4, ha, hb]
  · rw [readBits_U, requestWord_and, h4, ha, BitVec.and_zero]
  · rw [readBits_M, requestWord_and, h4, BitVec.and_zero]
  · rw [readBits_N, requestWord_and, h4, BitVec.and_zero, BitVec.and_zero]

/-- The five mask bits written into a word are all that a mask leaves of it. -/
theorem mask_image (m : FlagSet) : m.setWidth 32 &&& 0x1F#32 = (m.setWidth 32 : Word) := by
  revert m; decide

end Sys2Proof
end

