-- ==== Sys2Proof/Laws/State.lean ====
section
/-! SUPPORT. Each named update of the state, field by field: one simp lemma per field, so that no later proof unfolds a
record update. -/

namespace Sys2Proof.Machine

@[simp] theorem answersWith_status (s : State) (v : Word) (f : FlagSet) :
    (answersWith s v f).status = s.status ||| f := rfl

@[simp] theorem answersWith_fault (s : State) (v : Word) (f : FlagSet) :
    (answersWith s v f).fault = s.fault := rfl

@[simp] theorem answersWith_fcause (s : State) (v : Word) (f : FlagSet) :
    (answersWith s v f).fcause = s.fcause := rfl

@[simp] theorem answersWith_rsp (s : State) (v : Word) (f : FlagSet) :
    (answersWith s v f).rsp = some { result := v, flags := f } := rfl

@[simp] theorem answersWith_held (s : State) (v : Word) (f : FlagSet) :
    (answersWith s v f).held = s.held := rfl

@[simp] theorem answersWith_inputs (s : State) (v : Word) (f : FlagSet) :
    (answersWith s v f).inputs = s.inputs := rfl

@[simp] theorem answersWith_build (s : State) (v : Word) (f : FlagSet) :
    (answersWith s v f).build = s.build := rfl

@[simp] theorem stopsWith_status (s : State) (f : FlagSet) :
    (stopsWith s f).status = s.status ||| f := rfl

@[simp] theorem stopsWith_fault (s : State) (f : FlagSet) :
    (stopsWith s f).fault = true := rfl

@[simp] theorem stopsWith_fcause (s : State) (f : FlagSet) :
    (stopsWith s f).fcause = f := rfl

@[simp] theorem stopsWith_rsp (s : State) (f : FlagSet) :
    (stopsWith s f).rsp = none := rfl

@[simp] theorem stopsWith_held (s : State) (f : FlagSet) :
    (stopsWith s f).held = s.held := rfl

@[simp] theorem stopsWith_inputs (s : State) (f : FlagSet) :
    (stopsWith s f).inputs = s.inputs := rfl

@[simp] theorem stopsWith_build (s : State) (f : FlagSet) :
    (stopsWith s f).build = s.build := rfl

@[simp] theorem answer_status (s : State) (r : OpResult) :
    (answer s r).status = accumulate s.status r.clr r.flags := rfl

@[simp] theorem answer_fault (s : State) (r : OpResult) :
    (answer s r).fault = s.fault := rfl

@[simp] theorem answer_fcause (s : State) (r : OpResult) :
    (answer s r).fcause = s.fcause := rfl

@[simp] theorem answer_rsp (s : State) (r : OpResult) :
    (answer s r).rsp = some { result := r.value, flags := r.flags } := rfl

@[simp] theorem answer_held (s : State) (r : OpResult) :
    (answer s r).held = s.held := rfl

@[simp] theorem answer_inputs (s : State) (r : OpResult) :
    (answer s r).inputs = s.inputs := rfl

@[simp] theorem answer_build (s : State) (r : OpResult) :
    (answer s r).build = s.build := rfl

@[simp] theorem raiseFault_status (s : State) (f c : FlagSet) :
    (raiseFault s f c).status = accumulate s.status c f := rfl

@[simp] theorem raiseFault_fault (s : State) (f c : FlagSet) :
    (raiseFault s f c).fault = true := rfl

@[simp] theorem raiseFault_fcause (s : State) (f c : FlagSet) :
    (raiseFault s f c).fcause = f := rfl

@[simp] theorem raiseFault_rsp (s : State) (f c : FlagSet) :
    (raiseFault s f c).rsp = none := rfl

@[simp] theorem raiseFault_held (s : State) (f c : FlagSet) :
    (raiseFault s f c).held = s.held := rfl

@[simp] theorem raiseFault_inputs (s : State) (f c : FlagSet) :
    (raiseFault s f c).inputs = s.inputs := rfl

@[simp] theorem raiseFault_build (s : State) (f c : FlagSet) :
    (raiseFault s f c).build = s.build := rfl

@[simp] theorem resetOf_status (b : Build) (es : List Sample) :
    (State.resetOf b es).status = 0#5 := rfl

@[simp] theorem resetOf_fault (b : Build) (es : List Sample) :
    (State.resetOf b es).fault = false := rfl

@[simp] theorem resetOf_fcause (b : Build) (es : List Sample) :
    (State.resetOf b es).fcause = 0#5 := rfl

@[simp] theorem resetOf_rsp (b : Build) (es : List Sample) :
    (State.resetOf b es).rsp = none := rfl

@[simp] theorem resetOf_held (b : Build) (es : List Sample) :
    (State.resetOf b es).held = none := rfl

@[simp] theorem resetOf_inputs (b : Build) (es : List Sample) :
    (State.resetOf b es).inputs = es := rfl

@[simp] theorem resetOf_build (b : Build) (es : List Sample) :
    (State.resetOf b es).build = b := rfl

@[simp] theorem resetEdge_status (es : List Sample) :
    (resetEdge es).status = 0#5 := rfl

@[simp] theorem resetEdge_fault (es : List Sample) :
    (resetEdge es).fault = false := rfl

@[simp] theorem resetEdge_fcause (es : List Sample) :
    (resetEdge es).fcause = 0#5 := rfl

@[simp] theorem resetEdge_rsp (es : List Sample) :
    (resetEdge es).rsp = none := rfl

@[simp] theorem resetEdge_held (es : List Sample) :
    (resetEdge es).held = none := rfl

@[simp] theorem resetEdge_inputs (es : List Sample) :
    (resetEdge es).inputs = es := rfl

@[simp] theorem resetEdge_with_build (b : Build) (es : List Sample) :
    ({ toUnitState := resetEdge es, build := b } : State) = State.resetOf b es := rfl

@[simp] theorem withBuild_next (b : Build) (u : UnitState) :
    withBuild b (.next u) = .next { toUnitState := u, build := b } := rfl

@[simp] theorem withBuild_fault (b : Build) (c : Fault) : withBuild b (.fault c) = .fault c := rfl

@[simp] theorem withBuild_refused (b : Build) (c : Refusal) : withBuild b (.refused c) = .refused c := rfl

@[simp] theorem withoutBuild_next (s : State) : withoutBuild (.next s) = .next s.toUnitState := rfl

@[simp] theorem withoutBuild_fault (c : Fault) : withoutBuild (.fault c) = .fault c := rfl

@[simp] theorem withoutBuild_refused (c : Refusal) : withoutBuild (.refused c) = .refused c := rfl

@[simp] theorem withoutBuild_withBuild (b : Build) (o : Host.Outcome UnitState Fault Refusal) :
    withoutBuild (withBuild b o) = o := by cases o <;> rfl

@[simp] theorem offerWord_status (s : State) (n w : Nat) :
    (offerWord s n w).status = s.status := rfl

@[simp] theorem offerWord_fault (s : State) (n w : Nat) :
    (offerWord s n w).fault = s.fault := rfl

@[simp] theorem offerWord_fcause (s : State) (n w : Nat) :
    (offerWord s n w).fcause = s.fcause := rfl

@[simp] theorem offerWord_rsp (s : State) (n w : Nat) :
    (offerWord s n w).rsp = none := rfl

@[simp] theorem offerWord_held (s : State) (n w : Nat) :
    (offerWord s n w).held = none := rfl

@[simp] theorem offerWord_inputs (s : State) (n w : Nat) :
    (offerWord s n w).inputs = { rst := false, req := some (BitVec.ofNat 68 (w % 2 ^ n)), rspReady := false } :: s.inputs := rfl

@[simp] theorem offerWord_build (s : State) (n w : Nat) :
    (offerWord s n w).build = s.build := rfl

@[simp] theorem withFetchWord_eq_offerWord (s : State) (n w : Nat) : s.withFetchWord n w = offerWord s n w := rfl

@[simp] theorem registersOf_status (s : State) : (registersOf s).status = s.status := rfl

@[simp] theorem registersOf_fault (s : State) : (registersOf s).fault = s.fault := rfl

@[simp] theorem registersOf_fcause (s : State) : (registersOf s).fcause = s.fcause := rfl

end Sys2Proof.Machine
end

