-- ==== Sys2Proof/Laws/Ops.lean ====
section
/-! SUPPORT. What `commit` can do, said once, and every meaning as a `commit` of the rule of its operation. -/

namespace Sys2Proof.Machine

@[simp] theorem accumulate_clear_nothing (st f : FlagSet) : accumulate st 0#5 f = st ||| f := by
  have h : st &&& ~~~0#5 = st := BitVec.and_allOnes
  rw [accumulate, h]

@[simp] theorem selects_no_flag (mask : FlagSet) : selects mask 0#5 = false := by
  simp [selects]

@[simp] theorem selects_with_no_mask (f : FlagSet) : selects 0#5 f = false := by
  simp [selects]

/-- A meaning is the step of R17 on the rule of its operation. -/
theorem exec_eq_commit (i : Instr) (s : State) : exec i s = commit s (operation s.build s.status i) := by
  cases i <;> rfl

theorem commit_stopped {s : State} (h : s.fault = true) (r : OpResult) : commit s r = .fault .stopped := by
  simp [commit, h]

theorem commit_selected {s : State} {r : OpResult} (h : s.fault = false)
    (hs : selects s.build.assertMask r.flags = true) : commit s r = .next (raiseFault s r.flags r.clr) := by
  simp [commit, h, hs]

theorem commit_answered {s : State} {r : OpResult} (h : s.fault = false)
    (hs : selects s.build.assertMask r.flags = false) : commit s r = .next (answer s r) := by
  simp [commit, h, hs]

/-- Everything a committed request can do when it goes on. -/
theorem commit_next {s t : State} {r : OpResult} (h : commit s r = .next t) :
    s.fault = false ∧
      ((selects s.build.assertMask r.flags = true ∧ t = raiseFault s r.flags r.clr) ∨
        (selects s.build.assertMask r.flags = false ∧ t = answer s r)) := by
  unfold commit at h
  split at h
  · cases h
  · rename_i hf
    refine ⟨by simpa using hf, ?_⟩
    split at h
    · rename_i hs
      exact Or.inl ⟨hs, by cases h; rfl⟩
    · rename_i hs
      exact Or.inr ⟨by simpa using hs, by cases h; rfl⟩

/-- A committed request is never refused. -/
theorem commit_not_refused (s : State) (r : OpResult) (c : Refusal) : commit s r ≠ .refused c := by
  unfold commit
  split
  · simp
  · split <;> simp

/-- A committed request has no step only on a stopped unit. -/
theorem commit_fault_iff {s : State} {r : OpResult} {c : Fault} : commit s r = .fault c ↔ s.fault = true := by
  cases c
  unfold commit
  split
  · simp_all
  · split <;> simp_all

/-- Executing a request leaves the build as it is (R36, R163). -/
theorem exec_build {i : Instr} {s t : State} (h : exec i s = .next t) : t.build = s.build := by
  rw [exec_eq_commit] at h
  obtain ⟨-, ⟨-, rfl⟩ | ⟨-, rfl⟩⟩ := commit_next h <;> rfl

/-- Taking the build off an executed request and putting it back changes nothing. -/
theorem withBuild_withoutBuild_exec (i : Instr) (s : State) : withBuild s.build (withoutBuild (exec i s)) = exec i s := by
  cases h : exec i s with
  | next t => rw [withoutBuild_next, withBuild_next, ← exec_build h]
  | fault c => rfl
  | refused c => rfl

/-- The rule of an operation reads the build and, for RDST and CLRST, STATUS; nothing else of the state. -/
theorem operation_status_free {i : Instr} (h1 : i ≠ .rdst) (h2 : ∀ m, i ≠ .clrst m) (b : Build) (st st' : FlagSet) :
    operation b st i = operation b st' i := by
  cases i <;> first | rfl | exact absurd rfl h1 | exact absurd rfl (h2 _)

/-- Only CLRST clears (R17). -/
theorem operation_clr {i : Instr} (h : ∀ m, i ≠ .clrst m) (b : Build) (st : FlagSet) : (operation b st i).clr = 0#5 := by
  cases i <;> simp only [operation, mulResult, recipResult, sqrtResult, floorResult, ceilResult, truncResult, rdstResult,
    rdcfgResult, illegalResult]
  case clrst m => exact absurd rfl (h m)
  all_goals (repeat' split) <;> rfl

end Sys2Proof.Machine
end

