-- ==== Sys2Proof/Laws/PerInstr.lean ====
section
/-! SUPPORT. A statement about every operation as syntax, proved operation by operation: its encoding is canonical, every
ignored bit 0 (R70). -/

namespace Sys2Proof.Laws

/-- The encoding of `i` is canonical (R70). -/
def CanonicalEncoding.Statement (i : Instr) : Prop := isCanonical (encode i) = true

theorem CanonicalEncoding.illegal0 : CanonicalEncoding.Statement .illegal0 := by
  unfold CanonicalEncoding.Statement; decide

theorem CanonicalEncoding.mul (a b : Word) : CanonicalEncoding.Statement (.mul a b) := by
  simp [CanonicalEncoding.Statement, isCanonical, encode, canonicalWord_requestWord, formatOf]

theorem CanonicalEncoding.recip (a : Word) : CanonicalEncoding.Statement (.recip a) := by
  simp [CanonicalEncoding.Statement, isCanonical, encode, canonicalWord_requestWord, formatOf]

theorem CanonicalEncoding.sqrt (a : Word) : CanonicalEncoding.Statement (.sqrt a) := by
  simp [CanonicalEncoding.Statement, isCanonical, encode, canonicalWord_requestWord, formatOf]

theorem CanonicalEncoding.floor (a : Word) : CanonicalEncoding.Statement (.floor a) := by
  simp [CanonicalEncoding.Statement, isCanonical, encode, canonicalWord_requestWord, formatOf]

theorem CanonicalEncoding.ceil (a : Word) : CanonicalEncoding.Statement (.ceil a) := by
  simp [CanonicalEncoding.Statement, isCanonical, encode, canonicalWord_requestWord, formatOf]

theorem CanonicalEncoding.trunc (a : Word) : CanonicalEncoding.Statement (.trunc a) := by
  simp [CanonicalEncoding.Statement, isCanonical, encode, canonicalWord_requestWord, formatOf]

theorem CanonicalEncoding.illegal7 : CanonicalEncoding.Statement .illegal7 := by
  unfold CanonicalEncoding.Statement; decide

theorem CanonicalEncoding.illegal8 : CanonicalEncoding.Statement .illegal8 := by
  unfold CanonicalEncoding.Statement; decide

theorem CanonicalEncoding.illegal9 : CanonicalEncoding.Statement .illegal9 := by
  unfold CanonicalEncoding.Statement; decide

theorem CanonicalEncoding.illegalA : CanonicalEncoding.Statement .illegalA := by
  unfold CanonicalEncoding.Statement; decide

theorem CanonicalEncoding.illegalB : CanonicalEncoding.Statement .illegalB := by
  unfold CanonicalEncoding.Statement; decide

theorem CanonicalEncoding.rdst : CanonicalEncoding.Statement .rdst := by
  unfold CanonicalEncoding.Statement; decide

theorem CanonicalEncoding.clrst (m : FlagSet) : CanonicalEncoding.Statement (.clrst m) := by
  simp [CanonicalEncoding.Statement, isCanonical, encode, canonicalWord_requestWord, formatOf, mask_image]

theorem CanonicalEncoding.rdcfg : CanonicalEncoding.Statement .rdcfg := by
  unfold CanonicalEncoding.Statement; decide

theorem CanonicalEncoding.illegalF : CanonicalEncoding.Statement .illegalF := by
  unfold CanonicalEncoding.Statement; decide

end Sys2Proof.Laws
end

