-- ==== Sys2Proof/Laws/Ports.lean ====
section
/-! SUPPORT. What one edge can do, said once (`step_next_cases`). -/

namespace Sys2Proof.Machine

/-- One step, case by case, on the state with the build beside it. Later proofs cite this or `step_next_cases` and do not unfold
`unitStep`. -/
theorem step_eq_edge (s : State) : step s =
    match s.inputs with
    | [] => if s.fault then .fault .stopped else .next s
    | e :: rest =>
      if e.rst then .next (State.resetOf s.build rest)
      else if s.fault then
        if resetToCome rest then .next { s with inputs := rest } else .fault .stopped
      else if !keepsRequest s.toUnitState e then .refused .requestChanged
      else if s.rsp.isSome then
        .next { s with inputs := rest, held := e.req, rsp := if e.rspReady then none else s.rsp }
      else
        match e.req with
        | none => .next { s with inputs := rest, held := none }
        | some w => exec (decode w) { s with inputs := rest, held := none } := by
  obtain ⟨⟨status, fault, fcause, rsp, held, inputs⟩, build⟩ := s
  obtain _ | ⟨⟨rst, req, ready⟩, rest⟩ := inputs
  · cases fault <;> rfl
  cases rst
  case true => rfl
  cases fault
  case true => cases hc : resetToCome rest <;> simp [step, unitStep, hc]
  cases hk : keepsRequest ⟨status, false, fcause, rsp, held, ⟨false, req, ready⟩ :: rest⟩ ⟨false, req, ready⟩
  · simp [step, unitStep, hk]
  obtain _ | r := rsp
  · obtain _ | w := req
    · simp [step, unitStep, hk]
    · have e := withBuild_withoutBuild_exec (decode w) ⟨⟨status, false, fcause, none, none, rest⟩, build⟩
      simpa [step, unitStep, unitExec, hk] using e
  · simp [step, unitStep, hk]

theorem step_reset {s : State} {e : Sample} {rest : List Sample} (hi : s.inputs = e :: rest) (hr : e.rst = true) :
    step s = .next (State.resetOf s.build rest) := by
  simp [step_eq_edge, hi, hr]

theorem step_accept {s : State} {e : Sample} {rest : List Sample} {w : RequestWord} (hi : s.inputs = e :: rest)
    (hr : e.rst = false) (hf : s.fault = false) (hk : keepsRequest s.toUnitState e = true) (hp : s.rsp = none)
    (hq : e.req = some w) : step s = exec (decode w) { s with inputs := rest, held := none } := by
  simp [step_eq_edge, hi, hr, hf, hk, hp, hq]

/-- The step with the build beside the state is the step with the build as its argument (R36). -/
theorem step_eq_unitStep (s : State) : step s = withBuild s.build (unitStep s.build s.toUnitState) := rfl

/-- The ways an edge leads to a next state: no pins left, a reset, a stopped unit on its way to a reset, a busy unit, an idle
one, an accepted request. -/
inductive EdgeTo (s t : State) : Prop where
  | quiet (hi : s.inputs = []) (hf : s.fault = false) (ht : t = s)
  | reset (e : Sample) (rest : List Sample) (hi : s.inputs = e :: rest) (hr : e.rst = true)
      (ht : t = State.resetOf s.build rest)
  | stoppedWait (e : Sample) (rest : List Sample) (hi : s.inputs = e :: rest) (hr : e.rst = false)
      (hf : s.fault = true) (hc : resetToCome rest = true) (ht : t = { s with inputs := rest })
  | busy (e : Sample) (rest : List Sample) (r : Response) (hi : s.inputs = e :: rest) (hr : e.rst = false)
      (hf : s.fault = false) (hk : keepsRequest s.toUnitState e = true) (hp : s.rsp = some r)
      (ht : t = { s with inputs := rest, held := e.req, rsp := if e.rspReady then none else some r })
  | idle (e : Sample) (rest : List Sample) (hi : s.inputs = e :: rest) (hr : e.rst = false) (hf : s.fault = false)
      (hk : keepsRequest s.toUnitState e = true) (hp : s.rsp = none) (hq : e.req = none)
      (ht : t = { s with inputs := rest, held := none })
  | accept (e : Sample) (rest : List Sample) (w : RequestWord) (hi : s.inputs = e :: rest) (hr : e.rst = false)
      (hf : s.fault = false) (hk : keepsRequest s.toUnitState e = true) (hp : s.rsp = none) (hq : e.req = some w)
      (ht : exec (decode w) { s with inputs := rest, held := none } = .next t)

/-- Everything an edge can do when it goes on. -/
theorem step_next_cases {s t : State} (h : step s = .next t) : EdgeTo s t := by
  rw [step_eq_edge] at h
  split at h
  · rename_i hi
    split at h
    · cases h
    · rename_i hf
      cases h
      exact .quiet hi (by simpa using hf) rfl
  · rename_i e rest hi
    split at h
    · rename_i hr
      cases h
      exact .reset e rest hi hr rfl
    rename_i hr
    have hr : e.rst = false := by simpa using hr
    split at h
    · rename_i hf
      split at h
      · rename_i hc
        cases h
        exact .stoppedWait e rest hi hr hf hc rfl
      · cases h
    rename_i hf
    have hf : s.fault = false := by simpa using hf
    split at h
    · cases h
    rename_i hk
    have hk : keepsRequest s.toUnitState e = true := by simpa using hk
    split at h
    · rename_i hp
      obtain ⟨r, hp⟩ := Option.isSome_iff_exists.mp hp
      cases h
      exact .busy e rest r hi hr hf hk hp (by rw [hp])
    rename_i hp
    have hp : s.rsp = none := by simpa using hp
    split at h
    · rename_i hq
      cases h
      exact .idle e rest hi hr hf hk hp hq rfl
    · rename_i w hq
      exact .accept e rest w hi hr hf hk hp hq h

/-- What is accepted when the pins, the registers and the ports let the edge accept. -/
theorem accepts_of_ready {s : State} {e : Sample} {rest : List Sample} (hi : s.inputs = e :: rest) (hr : e.rst = false)
    (hf : s.fault = false) (hk : keepsRequest s.toUnitState e = true) (hp : s.rsp = none) : accepts s = e.req := by
  simp [accepts, hi, reqReady, rstPin, hr, hf, hp, hk]

/-- A stopped unit accepts nothing. -/
theorem accepts_of_stopped {s : State} (hf : s.fault = true) : accepts s = none := by
  unfold accepts
  split <;> simp [reqReady, hf]

/-- A unit that offers a response accepts nothing. -/
theorem accepts_of_busy {s : State} {r : Response} (hp : s.rsp = some r) : accepts s = none := by
  unfold accepts
  split <;> simp [reqReady, hp]

/-- Nothing is accepted at a reset edge. -/
theorem accepts_of_reset {s : State} {e : Sample} {rest : List Sample} (hi : s.inputs = e :: rest) (hr : e.rst = true) :
    accepts s = none := by
  simp [accepts, hi, reqReady, rstPin, hr]

end Sys2Proof.Machine
end

