-- ==== Sys2Proof/Laws/Run.lean ====
section
/-! SUPPORT. Runs of several edges (`Host.Core.run`), one edge at a time. -/

namespace Sys2Proof.Machine

/-- One more edge of any machine, when the edge goes on. -/
theorem run_of_next {M : Host.Core} {k : Nat} {s u : M.State} (h : M.step s = .next u) : M.run (k + 1) s = M.run k u := by
  rw [Host.Core.run, h]

/-- A machine whose edge is a fault runs into it. -/
theorem run_of_fault {M : Host.Core} {k : Nat} {s : M.State} {c : M.Fault} (h : M.step s = .fault c) :
    M.run (k + 1) s = .fault c := by
  rw [Host.Core.run, h]

/-- A machine whose edge is refused runs into it. -/
theorem run_of_refused {M : Host.Core} {k : Nat} {s : M.State} {c : M.Refusal} (h : M.step s = .refused c) :
    M.run (k + 1) s = .refused c := by
  rw [Host.Core.run, h]

/-- A run that goes on for one more edge is that edge and then the rest. -/
theorem run_succ_next {k : Nat} {s t : State} (h : Host.Core.run core (k + 1) s = .next t) :
    ∃ u : State, step s = .next u ∧ Host.Core.run core k u = .next t := by
  have e := Host.Core.run.eq_2 core s k
  have h' := e.symm.trans h
  cases hs : core.step s with
  | next u => exact ⟨u, hs, by rw [hs] at h'; exact h'⟩
  | fault r => rw [hs] at h'; cases h'
  | refused r => rw [hs] at h'; cases h'

/-- A run of no edges is where it starts. -/
theorem run_zero_next {s t : State} (h : Host.Core.run core 0 s = .next t) : t = s := by
  have h' := (Host.Core.run.eq_1 core s).symm.trans h
  exact (Host.Outcome.next.inj h').symm

end Sys2Proof.Machine
end

