-- ==== Sys2Proof/Tests/Slice0.lean ====
section
/-! SUPPORT. Tests: ill-formed terms are refused; each opcode's word, written bit by bit from R60 and R64, decodes to its
operation; one or two vectors of spec/95_test_vectors.md or of a rule's corner table for each operation; and, for each obligation
with hypotheses, a concrete case that meets them. -/

namespace Sys2Proof.Tests

open Sys2Proof Sys2Proof.Machine

/-- A unit just after reset. -/
def unit (r : Radix) (mask : FlagSet) : State := State.resetOf { radix := r, assertMask := mask } []

/-- The response word offered after a step, if the step goes on and offers one. -/
def offeredAfter (o : Host.Outcome State Fault Refusal) : Option ResponseWord :=
  match o with
  | .next t => t.rsp.map responseWord
  | .fault _ => none
  | .refused _ => none

/-- The registers after a step that goes on. -/
def registersAfter (o : Host.Outcome State Fault Refusal) : Option Registers :=
  match o with
  | .next t => some (registersOf t)
  | .fault _ => none
  | .refused _ => none

/-- A request raised at one edge. -/
def raised (w : RequestWord) : Sample := { rst := false, req := some w, rspReady := false }

/-! ## Ill-formed terms -/

theorem test_wide_number_is_no_request : requestFits (2 ^ 68) = false := by decide

theorem test_widest_number_is_a_request : requestFits (2 ^ 68 - 1) = true := by decide

theorem test_wide_number_is_rejected_by_name : decodeNumber (2 ^ 68) = .error .widerThanRequest := rfl

theorem test_inexact_literal_is_refused : (Literal.real false 1 1).wellFormed .r16 = false := by decide

theorem test_literal_above_the_range_is_refused : (Literal.real false 327680 1).wellFormed .r16 = false := by decide

theorem test_literal_below_the_range_is_refused : (Literal.real true 327690 1).wellFormed .r16 = false := by decide

theorem test_mask_above_31_is_refused : (MaskOperand.number 32).wellFormed = false := by decide

theorem test_illegal_line_with_a_used_opcode_is_refused : (AsmLine.illegal 0x1#4).wellFormed .r16 = false := by decide

theorem test_every_operand_is_well_formed : (Instr.mul 0x80000000#32 0xFFFFFFFF#32).wellFormed = true := by decide

/-! ## Words written bit by bit (R60, R64) -/

theorem test_decode_illegal0 :
    decode 0b0000_11111111_11111110_10000000_00000000_00000000_00000010_00000000_00000001#68 = .illegal0 := by
  decide

theorem test_decode_mul :
    decode 0b0001_11111111_11111110_10000000_00000000_00000000_00000010_00000000_00000001#68 = .mul 0xFFFE8000#32 0x00020001#32 := by
  decide

theorem test_decode_recip :
    decode 0b0010_11111111_11111110_10000000_00000000_00000000_00000010_00000000_00000001#68 = .recip 0xFFFE8000#32 := by
  decide

theorem test_decode_sqrt :
    decode 0b0011_11111111_11111110_10000000_00000000_00000000_00000010_00000000_00000001#68 = .sqrt 0xFFFE8000#32 := by
  decide

theorem test_decode_floor :
    decode 0b0100_11111111_11111110_10000000_00000000_00000000_00000010_00000000_00000001#68 = .floor 0xFFFE8000#32 := by
  decide

theorem test_decode_ceil :
    decode 0b0101_11111111_11111110_10000000_00000000_00000000_00000010_00000000_00000001#68 = .ceil 0xFFFE8000#32 := by
  decide

theorem test_decode_trunc :
    decode 0b0110_11111111_11111110_10000000_00000000_00000000_00000010_00000000_00000001#68 = .trunc 0xFFFE8000#32 := by
  decide

theorem test_decode_illegal7 :
    decode 0b0111_11111111_11111110_10000000_00000000_00000000_00000010_00000000_00000001#68 = .illegal7 := by
  decide

theorem test_decode_illegal8 :
    decode 0b1000_11111111_11111110_10000000_00000000_00000000_00000010_00000000_00000001#68 = .illegal8 := by
  decide

theorem test_decode_illegal9 :
    decode 0b1001_11111111_11111110_10000000_00000000_00000000_00000010_00000000_00000001#68 = .illegal9 := by
  decide

theorem test_decode_illegalA :
    decode 0b1010_11111111_11111110_10000000_00000000_00000000_00000010_00000000_00000001#68 = .illegalA := by
  decide

theorem test_decode_illegalB :
    decode 0b1011_11111111_11111110_10000000_00000000_00000000_00000010_00000000_00000001#68 = .illegalB := by
  decide

theorem test_decode_rdst :
    decode 0b1100_11111111_11111110_10000000_00000000_00000000_00000010_00000000_00000001#68 = .rdst := by
  decide

theorem test_decode_clrst :
    decode 0b1101_11111111_11111111_11111111_11110101_00000000_00000010_00000000_00000001#68 = .clrst 0b10101#5 := by
  decide

theorem test_decode_rdcfg :
    decode 0b1110_11111111_11111110_10000000_00000000_00000000_00000010_00000000_00000001#68 = .rdcfg := by
  decide

theorem test_decode_illegalF :
    decode 0b1111_11111111_11111110_10000000_00000000_00000000_00000010_00000000_00000001#68 = .illegalF := by
  decide

theorem test_table_row_is_decoded : decodeTableWord 72 0x1_00018000_00020000 = some (.mul 0x00018000#32 0x00020000#32) := by
  decide

theorem test_encode_clrst_clears_ignored_bits : encode (.clrst 0b00101#5) = 0xD_00000005_00000000#68 := by decide

/-! ## Operations, one step each (values of spec/95_test_vectors.md part 2) -/

/-- 95 section 2.1 -/
theorem test_mul_truncates_toward_zero :
    offeredAfter (step ((unit .r16 0#5).withFetchWord 72 0x1_EDCBA988_00009ABC)) = some 0x00_F4FF258D#37 := by
  decide

/-- 95 section 2.1 -/
theorem test_mul_saturates_negative :
    offeredAfter (step ((unit .r12 0#5).withFetchWord 72 0x1_7FFFFFFF_FFFFEFFF)) = some 0x01_80000001#37 := by
  decide

/-- 95 sections 2.2 and 2.6 -/
theorem test_recip_of_minus_three :
    offeredAfter (step ((unit .r16 0#5).withFetchWord 72 0x2_FFFD0000_FFFFFFFF)) = some 0x00_FFFFAAAB#37 := by
  decide

/-- 95 section 2.2 -/
theorem test_recip_of_zero :
    offeredAfter (step ((unit .r12 0#5).withFetchWord 72 0x2_00000000_00000000)) = some 0x04_7FFFFFFF#37 := by
  decide

/-- 95 section 2.3 -/
theorem test_sqrt_truncates :
    offeredAfter (step ((unit .r16 0#5).withFetchWord 72 0x3_00020000_00000000)) = some 0x00_00016A09#37 := by
  decide

/-- 95 section 2.3 -/
theorem test_sqrt_of_negative :
    offeredAfter (step ((unit .r12 0#5).withFetchWord 72 0x3_FFFFF000_00000000)) = some 0x08_00000000#37 := by
  decide

/-- 95 sections 2.4 and 2.6 -/
theorem test_floor_of_negative :
    offeredAfter (step ((unit .r16 0#5).withFetchWord 72 0x4_FFFE8000_00000001)) = some 0x00_FFFE0000#37 := by
  decide

/-- 95 section 2.4 -/
theorem test_floor_reaches_minpat :
    offeredAfter (step ((unit .r12 0#5).withFetchWord 72 0x4_80000001_00000000)) = some 0x00_80000000#37 := by
  decide

/-- 95 section 2.4 -/
theorem test_ceil_saturates :
    offeredAfter (step ((unit .r16 0#5).withFetchWord 72 0x5_7FFF0001_00000000)) = some 0x01_7FFFFFFF#37 := by
  decide

/-- 95 section 2.4 -/
theorem test_ceil_of_minpat :
    offeredAfter (step ((unit .r12 0#5).withFetchWord 72 0x5_80000000_00000000)) = some 0x00_80000000#37 := by
  decide

/-- 95 section 2.4 -/
theorem test_trunc_of_negative :
    offeredAfter (step ((unit .r16 0#5).withFetchWord 72 0x6_FFFE8000_00000000)) = some 0x00_FFFF0000#37 := by
  decide

/-- 95 section 2.4 -/
theorem test_trunc_of_minpat :
    offeredAfter (step ((unit .r12 0#5).withFetchWord 72 0x6_80000000_00000000)) = some 0x00_80000000#37 := by
  decide

/-- 95 section 2.5 -/
theorem test_rdcfg_of_an_assert_build :
    offeredAfter (step ((unit .r12 0b11111#5).withFetchWord 72 0xE_00000000_00000000)) = some 0x00_00101F0C#37 := by
  decide

/-- 95 section 2.5 -/
theorem test_rdst_ignores_operands :
    offeredAfter (step ({ unit .r16 0#5 with status := 0b01101#5 }.withFetchWord 72 0xC_DEADBEEF_12345678)) =
      some 0x00_0000000D#37 := by
  decide

/-- 95 section 2.5 -/
theorem test_clrst_reads_only_five_bits :
    registersAfter (step ({ unit .r16 0#5 with status := 0b01101#5 }.withFetchWord 72 0xD_FFFFFFE4_00000000)) =
      some { status := 0b01001#5, fault := false, fcause := 0#5 } := by
  decide

/-- 95 section 2.5 -/
theorem test_illegal_0 :
    offeredAfter (step ((unit .r16 0#5).withFetchWord 72 0x0_12345678_9ABCDEF0)) = some 0x10_00000000#37 := by
  decide

/-- 95 section 2.5 -/
theorem test_illegal_7 :
    offeredAfter (step ((unit .r16 0#5).withFetchWord 72 0x7_12345678_9ABCDEF0)) = some 0x10_00000000#37 := by
  decide

/-- 95 section 2.5 -/
theorem test_illegal_8 :
    offeredAfter (step ((unit .r16 0#5).withFetchWord 72 0x8_12345678_9ABCDEF0)) = some 0x10_00000000#37 := by
  decide

/-- 95 section 2.5 -/
theorem test_illegal_9 :
    offeredAfter (step ((unit .r16 0#5).withFetchWord 72 0x9_12345678_9ABCDEF0)) = some 0x10_00000000#37 := by
  decide

/-- 95 section 2.5 -/
theorem test_illegal_A :
    offeredAfter (step ((unit .r16 0#5).withFetchWord 72 0xA_12345678_9ABCDEF0)) = some 0x10_00000000#37 := by
  decide

/-- 95 section 2.5 -/
theorem test_illegal_B :
    offeredAfter (step ((unit .r16 0#5).withFetchWord 72 0xB_12345678_9ABCDEF0)) = some 0x10_00000000#37 := by
  decide

/-- 95 section 2.5 -/
theorem test_illegal_F_accumulates :
    registersAfter (step ({ unit .r16 0#5 with status := 0b00001#5 }.withFetchWord 72 0xF_FFFFFFFF_FFFFFFFF)) =
      some { status := 0b10001#5, fault := false, fcause := 0#5 } := by
  decide

/-- 95 program P5, line 3 -/
theorem test_overflow_stops_the_debug_build :
    registersAfter (step ({ unit .r16 0b00011#5 with status := 0b01000#5 }.withFetchWord 72 0x1_7FFFFFFF_00020000)) =
      some { status := 0b01001#5, fault := true, fcause := 0b00001#5 } := by
  decide

/-- 95 section 2.5, last row -/
theorem test_illegal_stops_a_build_that_asserts_it :
    registersAfter (step ((unit .r16 0b10000#5).withFetchWord 72 0x9_00000000_00000000)) =
      some { status := 0b10000#5, fault := true, fcause := 0b10000#5 } := by
  decide

/-- R71: an inexact literal is an assembly error -/
theorem test_inexact_line_does_not_assemble : assembleText .r16 "recip 0.1" = none := by decide

/-- R70, R72 -/
theorem test_comment_and_case : assembleText .r12 "  SQR -3.0 ; square" = some 0x1_FFFFD000_FFFFD000#68 := by decide

/-- R70 -/
theorem test_disassembly_prints_what_is_read : disassembleText 0x2_00040000_FFFFFFFF#68 = "recip 0x00040000" := by decide

/-! ## Cases that meet the hypotheses of the obligations -/

/-- ScalarsAreTheMultiplesOfAnUlp: both ends of the range. -/
theorem witness_scalar_range : (-(2 ^ 31) ≤ (-(2 ^ 31) : Int) ∧ (-(2 ^ 31) : Int) < 2 ^ 31) ∧
    (-(2 ^ 31) ≤ (2 ^ 31 - 1 : Int) ∧ (2 ^ 31 - 1 : Int) < 2 ^ 31) := by decide

/-- IgnoredBitsHaveNoEffect -/
theorem witness_requests_that_agree :
    opcodeField 0xD_FFFFFFE4_00000001#68 = opcodeField 0xD_00000004_00000000#68 ∧
    canonicalWord 0xD_FFFFFFE4_00000001#68 = canonicalWord 0xD_00000004_00000000#68 := by decide

/-- DecodeInvertsEncode -/
theorem witness_well_formed : (Instr.clrst 0b11111#5).wellFormed = true := by decide

/-- EncodeInvertsDecodeUpToIgnoredBits -/
theorem witness_canonical : isCanonical 0xD_0000001F_00000000#68 = true := by decide

/-- AssemblerEmitsCanonicalWords -/
theorem witness_line_assembles :
    assemble .r16 (.clrst (.number 31)) = some 0xD_0000001F_00000000#68 := by decide

/-- RealLiteralsAreExact, an exact literal and one that no Scalar has: `-32768.0` and `32768.0`. -/
theorem witness_literals : literalWord .r16 (.real true 327680 1) = some 0x80000000#32 ∧
    literalWord .r16 (.real false 327680 1) = none := by decide

/-- StepRunsTheDecodedRequest, with no request standing, with this one standing, and through `withFetchWord`. -/
theorem witness_step_runs :
    (∃ s : State, s.fault = false ∧ s.rsp = none ∧ s.held = none ∧ s.inputs = raised 0xE_00000000_00000000#68 :: []) ∧
    (∃ s : State, s.fault = false ∧ s.rsp = none ∧ s.held = some 0xE_00000000_00000000#68 ∧
      s.inputs = raised 0xE_00000000_00000000#68 :: []) ∧
    ((unit .r16 0#5).fault = false ∧ 2 ^ 68 - 1 < 2 ^ 68) :=
  ⟨⟨{ unit .r16 0#5 with inputs := [raised 0xE_00000000_00000000#68] }, rfl, rfl, rfl, rfl⟩,
    ⟨{ unit .r16 0#5 with inputs := [raised 0xE_00000000_00000000#68], held := some 0xE_00000000_00000000#68 },
      rfl, rfl, rfl, rfl⟩, rfl, by decide⟩

/-- ExecIsTheStepOfTheSpec: a stopped unit, a selected flag, a flag not selected. -/
theorem witness_exec_cases :
    { unit .r16 0#5 with fault := true }.fault = true ∧
    ((unit .r16 0b10000#5).fault = false ∧
      (operation (unit .r16 0b10000#5).build 0#5 .illegal9).flags &&& (unit .r16 0b10000#5).build.assertMask ≠ 0#5) ∧
    ((unit .r16 0b01111#5).fault = false ∧
      (operation (unit .r16 0b01111#5).build 0#5 .illegal9).flags &&& (unit .r16 0b01111#5).build.assertMask = 0#5) := by
  decide

/-- MulAnswersProductRoundedTowardZero: a zero operand on either side; `M` just above MAXMAG; `M = 0` at its largest product;
`M = 1` and `M = MAXMAG`. -/
theorem witness_mul_cases :
    (unit .r16 0#5).fault = false ∧
    selects (unit .r16 0#5).build.assertMask flagOVF = false ∧ selects (unit .r16 0#5).build.assertMask flagUNF = false ∧
    (0x00000000#32 = 0x00000000#32 ∨ 0x80000000#32 = 0x00000000#32) ∧
    mag 0x80000000#32 * mag 0x00010000#32 / 2 ^ 16 = 0x7FFFFFFF + 1 ∧
    mag 0x00000001#32 * mag 0x0000FFFF#32 / 2 ^ 16 = 0 ∧
    mag 0x00000001#32 * mag 0x00010000#32 / 2 ^ 16 = 1 ∧
    mag 0x7FFFFFFF#32 * mag 0x00010000#32 / 2 ^ 16 = 0x7FFFFFFF := by decide

theorem witness_mul_runs :
    exec (.mul 0x80000000#32 0x00010000#32) (unit .r16 0#5) = .next (answersWith (unit .r16 0#5) 0x80000001#32 flagOVF) ∧
    exec (.mul 0x00000001#32 0x0000FFFF#32) (unit .r16 0#5) = .next (answersWith (unit .r16 0#5) 0x00000000#32 flagUNF) ∧
    exec (.mul 0x7FFFFFFF#32 0x00010000#32) (unit .r16 0#5) = .next (answersWith (unit .r16 0#5) 0x7FFFFFFF#32 0#5) :=
  ⟨rfl, rfl, rfl⟩

/-- HighPartialProductConditionImpliesOverflow: the least `hh` that meets the condition, at each radix. -/
theorem witness_high_partial_product :
    bitlen (highProduct (mag 0x00800000#32) (mag 0x01000000#32)) = 32 - 16 ∧
    bitlen (highProduct (mag 0x08000000#32) (mag 0x01000000#32)) = 32 - 12 ∧
    bitlen (highProduct (mag 0x00100000#32) (mag 0x00800000#32)) = 12 := by decide

/-- MulIsCommutativeOddAndUnital, MulIsMonotoneWithBoundedError -/
theorem witness_mul_laws :
    (0x80000001#32 : Word) ≠ minPat ∧ mag 0xFFFFFFFF#32 ≤ mag 0x00000001#32 ∧
    (mulResult .r16 0x7FFFFFFF#32 0x00010000#32).flags = 0#5 := by decide

/-- MinPatIsLegalAndNotProducedByMulOrRecip -/
theorem witness_minpat_unit :
    (unit .r12 0#5).fault = false ∧ (unit .r12 0#5).build.assertMask = 0#5 := by decide

/-- RecipAnswersReciprocalRoundedTowardZero: zero; the largest operand with OVF and the least without; the least with UNF and the
largest without. -/
theorem witness_recip_cases :
    (unit .r16 0#5).fault = false ∧ selects (unit .r16 0#5).build.assertMask flagDZ = false ∧
    selects (unit .r16 0#5).build.assertMask flagOVF = false ∧ selects (unit .r12 0#5).build.assertMask flagUNF = false ∧
    0x7FFFFFFF < 2 ^ (2 * 16) / mag 0x00000002#32 ∧ 2 ^ (2 * 16) / mag 0x00000003#32 ≤ 0x7FFFFFFF ∧
    2 ^ (2 * 12) / mag 0x01000001#32 = 0 ∧ 0 < 2 ^ (2 * 12) / mag 0x01000000#32 := by decide

theorem witness_recip_runs :
    exec (.recip 0x00000000#32) (unit .r16 0#5) = .next (answersWith (unit .r16 0#5) 0x7FFFFFFF#32 flagDZ) ∧
    exec (.recip 0x00000002#32) (unit .r16 0#5) = .next (answersWith (unit .r16 0#5) 0x7FFFFFFF#32 flagOVF) ∧
    exec (.recip 0x01000001#32) (unit .r12 0#5) = .next (answersWith (unit .r12 0#5) 0x00000000#32 flagUNF) ∧
    exec (.recip 0x00000003#32) (unit .r16 0#5) = .next (answersWith (unit .r16 0#5) 0x55555555#32 0#5) :=
  ⟨rfl, rfl, rfl, rfl⟩

/-- RecipLawsWithMul: the law's own example, an operand with a ZERO result, and the largest operand that raises no flag at
radix 12. -/
theorem witness_recip_laws :
    (0x80000001#32 : Word) ≠ minPat ∧ (0x80000001#32 : Word) ≠ zeroWord ∧
    (recipResult .r12 0x7FFFFFFF#32).value = zeroWord ∧
    (0 < sint 0x12345678#32 ∧ (recipResult .r16 0x12345678#32).flags = 0#5) ∧
    (0 < sint 0x01000000#32 ∧ (recipResult .r12 0x01000000#32).flags = 0#5) := by decide

/-- RestoringDivisionComputesTheQuotient -/
theorem witness_division : 0 < mag 0x80000000#32 ∧ 2 ^ (2 * 16) < 2 ^ (2 * 16 + 1) ∧ (0x80000000#32 : Word) ≠ 0x00000000#32 := by
  decide

/-- SqrtAnswersIntegerRoot: both sides of the sign. -/
theorem witness_sqrt_cases :
    (unit .r16 0#5).fault = false ∧ selects (unit .r16 0#5).build.assertMask flagINV = false ∧ sgn 0x80000000#32 = true ∧
    sgn 0x7FFFFFFF#32 = false := by decide

theorem witness_sqrt_runs :
    exec (.sqrt 0x80000000#32) (unit .r16 0#5) = .next (answersWith (unit .r16 0#5) 0x00000000#32 flagINV) ∧
    exec (.sqrt 0x7FFFFFFF#32) (unit .r16 0#5) = .next (answersWith (unit .r16 0#5) 0x00B504F3#32 0#5) :=
  ⟨rfl, rfl⟩

/-- SqrtLawsWithMul: two operands in order, a perfect square, the integer square 9.0. -/
theorem witness_sqrt_laws :
    sgn 0x00090000#32 = false ∧ sgn 0x7FFFFFFF#32 = false ∧ (0x00090000#32).toNat ≤ (0x7FFFFFFF#32).toNat ∧
    0x00030000 * 0x00030000 = (0x00090000#32).toNat * 2 ^ Radix.r16.bits ∧
    (0x00090000#32).toNat = 3 * 3 * 2 ^ Radix.r16.bits := by decide

/-- DigitRecurrenceComputesTheRoot: the largest radicand of 24 groups. -/
theorem witness_radicand : 2 ^ 48 - 1 < 4 ^ 24 ∧ 2 ^ 48 - 1 < 2 ^ 48 := by decide

/-- CeilAnswersTheCeiling: the last operand that fits and the first that does not, and MINPAT. -/
theorem witness_ceil_cases :
    (unit .r16 0#5).fault = false ∧ selects (unit .r16 0#5).build.assertMask flagOVF = false ∧
    (sint 0x7FFF0000#32 - 1) / 2 ^ 16 * 2 ^ 16 + 2 ^ 16 ≤ 0x7FFFFFFF ∧
    0x7FFFFFFF < (sint 0x7FFF0001#32 - 1) / 2 ^ 16 * 2 ^ 16 + 2 ^ 16 := by decide

theorem witness_rounding_runs :
    exec (.ceil 0x7FFF0001#32) (unit .r16 0#5) = .next (answersWith (unit .r16 0#5) 0x7FFFFFFF#32 flagOVF) ∧
    exec (.ceil 0x7FFF0000#32) (unit .r16 0#5) = .next (answersWith (unit .r16 0#5) 0x7FFF0000#32 0#5) ∧
    exec (.floor 0x80000001#32) (unit .r16 0#5) = .next (answersWith (unit .r16 0#5) 0x80000000#32 0#5) ∧
    exec (.trunc 0x80000001#32) (unit .r16 0#5) = .next (answersWith (unit .r16 0#5) 0x80010000#32 0#5) :=
  ⟨rfl, rfl, rfl, rfl⟩

/-- CeilOverflowsExactlyAboveMaxInt, the first overflowing operand at each radix. -/
theorem witness_ceil_overflow :
    (ceilResult .r16 0x7FFF0001#32).flags = flagOVF ∧ (ceilResult .r12 0x7FFFF001#32).flags = flagOVF := by decide

/-- RoundingsBracketTheOperand, RoundingsAreIdempotentAndMirrored -/
theorem witness_rounding_laws :
    (ceilResult .r16 0xFFFE8000#32).flags = 0#5 ∧ (0x7FFF0000#32 : Word) &&& fracMask .r16 = 0#32 ∧
    (0xFFFE8000#32 : Word) &&& fracMask .r16 ≠ 0#32 ∧ 0 ≤ sint 0x00000000#32 ∧ sint 0xFFFFFFFF#32 < 0 ∧
    (0x80000001#32 : Word) ≠ minPat ∧ ¬(ceilResult .r16 0x7FFFFFFF#32).flags = 0#5 := by decide

/-- RdstReadsStatus, ClrstReadsThenClears, RdcfgReadsTheBuild -/
theorem witness_control_runs :
    exec .rdst { unit .r16 0#5 with status := 0b01101#5 } =
      .next { unit .r16 0#5 with status := 0b01101#5, rsp := some { result := 0x0000000D#32, flags := 0#5 } } ∧
    exec (.clrst 0b00001#5) { unit .r16 0b11111#5 with status := 0b01001#5 } =
      .next { unit .r16 0b11111#5 with status := 0b01000#5, rsp := some { result := 0x00000009#32, flags := 0#5 } } ∧
    exec .rdcfg (unit .r12 0#5) = .next { unit .r12 0#5 with rsp := some { result := 0x0010000C#32, flags := 0#5 } } :=
  ⟨rfl, rfl, rfl⟩

/-- ReservedOpcodesAnswerZeroWithIll -/
theorem witness_reserved :
    ((unit .r16 0b01111#5).fault = false ∧ (unit .r16 0b01111#5).build.assertMask.getLsbD 4 = false) ∧
    ((unit .r16 0b10000#5).fault = false ∧ (unit .r16 0b10000#5).build.assertMask.getLsbD 4 = true ∧
      isReserved (opcodeOf .illegal0) = true ∧ isReserved (opcodeOf .illegalF) = true) ∧ isReserved 0xB#4 = true := by decide

/-- StatusIsSticky: a bit cleared by reset and a bit cleared by CLRST. -/
theorem witness_status_cleared :
    step { unit .r16 0#5 with status := 0b10001#5, inputs := [{ rst := true, req := none, rspReady := false }] } =
      .next (unit .r16 0#5) ∧
    (∃ t : State, step ({ unit .r16 0#5 with status := 0b10001#5 }.withFetchWord 72 0xD_00000010_00000000) = .next t ∧
      t.status.getLsbD 4 = false ∧ t.status.getLsbD 0 = true) ∧
    (∃ t : State, exec .illegal7 (unit .r16 0b10000#5) = .next t ∧ t.fault = true) :=
  ⟨rfl, ⟨_, rfl, rfl, rfl⟩, ⟨_, rfl, rfl⟩⟩

/-- ArithmeticResponsesArePure: two states that share only the radix. -/
theorem witness_pure_states :
    isArithmetic (.recip 0#32) = true ∧ (unit .r16 0#5).build.radix = (unit .r16 0b11011#5).build.radix ∧
    exec (.recip 0#32) (unit .r16 0#5) = .next (answersWith (unit .r16 0#5) 0x7FFFFFFF#32 flagDZ) ∧
    exec (.recip 0#32) { unit .r16 0b11011#5 with status := 0b00001#5 } =
      .next (answersWith { unit .r16 0b11011#5 with status := 0b00001#5 } 0x7FFFFFFF#32 flagDZ) :=
  ⟨rfl, rfl, rfl, rfl⟩

/-- EachConditionRaisesItsFlag, its clause on the fallback value. -/
theorem witness_flag_raised : (operation (unit .r16 0#5).build 0#5 (.sqrt 0xFFFFFFFF#32)).flags ≠ 0#5 := by decide

/-- SelectedFlagEntersTheFault -/
theorem witness_fault_entry :
    (unit .r16 0b10000#5).fault = false ∧
    (operation (unit .r16 0b10000#5).build 0#5 .illegal0).flags &&& (unit .r16 0b10000#5).build.assertMask ≠ 0#5 ∧
    accepts ((unit .r16 0#5).withFetchWord 72 0xE_00000000_00000000) = some 0xE_00000000_00000000#68 := by decide

/-- EachSelectedConditionStopsTheUnit: each selected flag, at the operand where its condition begins. -/
theorem witness_selected_conditions :
    (unit .r16 0b11111#5).fault = false ∧ selects (unit .r16 0b11111#5).build.assertMask flagOVF = true ∧
    selects (unit .r16 0b11111#5).build.assertMask flagUNF = true ∧ selects (unit .r16 0b11111#5).build.assertMask flagDZ = true ∧
    selects (unit .r16 0b11111#5).build.assertMask flagINV = true ∧
    maxMag < mag 0x80000000#32 * mag 0x00010000#32 / 2 ^ 16 ∧ maxMag < 2 ^ (2 * 16) / mag 0x00000002#32 ∧
    sint (maxIntWord .r16) < sint 0x7FFF0001#32 ∧ mag 0x00000001#32 * mag 0x0000FFFF#32 / 2 ^ 16 = 0 ∧
    2 ^ (2 * 12) / mag 0x01000001#32 = 0 ∧ sgn 0x80000000#32 = true := by decide

theorem witness_stops :
    exec (.mul 0x80000000#32 0x00010000#32) (unit .r16 0b11111#5) = .next (stopsWith (unit .r16 0b11111#5) flagOVF) ∧
    exec (.recip 0x01000001#32) (unit .r12 0b11111#5) = .next (stopsWith (unit .r12 0b11111#5) flagUNF) ∧
    exec (.recip 0x00000000#32) (unit .r12 0b11111#5) = .next (stopsWith (unit .r12 0b11111#5) flagDZ) ∧
    exec (.ceil 0x7FFF0001#32) (unit .r16 0b11111#5) = .next (stopsWith (unit .r16 0b11111#5) flagOVF) ∧
    exec (.sqrt 0x80000000#32) (unit .r16 0b11111#5) = .next (stopsWith (unit .r16 0b11111#5) flagINV) :=
  ⟨rfl, rfl, rfl, rfl, rfl⟩

/-- DebugBuildFaultsOnlyOnOverflowAndUnderflow -/
theorem witness_debug_build :
    (unit .r12 0b00011#5).fault = false ∧ (unit .r12 0b00011#5).build.assertMask = 0b00011#5 := by decide

/-- FaultIsSetOnlyBySelectedFlagsAndClearedOnlyByReset, FcauseIsWrittenOnlyAtTheFault: the edge that sets FAULT, an edge that leaves
it, the edge that clears it. -/
theorem witness_fault_edges :
    step ((unit .r16 0b10000#5).withFetchWord 72 0x0_00000000_00000000) =
      .next (stopsWith (unit .r16 0b10000#5) flagILL) ∧
    rstPin ((unit .r16 0b10000#5).withFetchWord 72 0x0_00000000_00000000) = false ∧
    (∃ t : State, step { unit .r16 0b10000#5 with fault := true, inputs := [raised 0#68, ⟨true, none, false⟩] } = .next t ∧
      t.fault = true) ∧
    (∃ t : State, step { unit .r16 0b10000#5 with fault := true, inputs := [⟨true, none, false⟩] } = .next t ∧
      t.fault = false) ∧
    (unit .r16 0#5).build.assertMask = 0#5 :=
  ⟨rfl, rfl, ⟨_, rfl, rfl⟩, ⟨_, rfl, rfl⟩, rfl⟩

/-- StoppedUnitChangesNothingUntilReset: no reset to come, one at this edge, one later; and a good stopped state. -/
theorem witness_stopped :
    resetToCome [raised 0#68] = false ∧ resetToCome ([] : List Sample) = false ∧
    (⟨true, none, false⟩ : Sample).rst = true ∧
    ((raised 0#68).rst = false ∧ resetToCome [⟨true, none, false⟩] = true) ∧
    (stopsWith (unit .r16 0b10000#5) flagILL).fault = true ∧ (stopsWith (unit .r16 0b10000#5) flagILL).good = true := by decide

/-- OptimizedBuildAnswersEverything -/
theorem witness_optimized :
    (unit .r16 0#5).fault = false ∧ optimized (unit .r16 0#5).build = true ∧ resetRegisters.fault = false := by decide

/-- ResetLeavesTheStatedValues, ResetWinsOverEverything: a reset at an edge with a request raised, a response offered and FAULT set, and one
at an idle edge. -/
theorem witness_reset_edges :
    ∃ (s s' : State) (e e' : Sample), s.inputs = [e] ∧ s'.inputs = [e'] ∧ e.rst = true ∧ e'.rst = true ∧ s.build = s'.build ∧
      s.fault = true ∧ s.rsp.isSome = true ∧ s'.fault = false ∧ step s = step s' :=
  ⟨{ unit .r16 0#5 with fault := true, rsp := some ⟨0#32, 0#5⟩, inputs := [⟨true, some 0#68, true⟩] },
    { unit .r16 0#5 with inputs := [⟨true, none, false⟩] }, ⟨true, some 0#68, true⟩, ⟨true, none, false⟩,
    rfl, rfl, rfl, rfl, rfl, rfl, rfl, rfl, rfl⟩

/-- OfferedResponseStaysUntilTaken: an edge at which it stays and one at which it is taken. -/
theorem witness_offered :
    ∃ (s t s' t' : State) (r : Response) (e e' : Sample), s.rsp = some r ∧ s.inputs = [e] ∧ e.rst = false ∧ s.fault = false ∧
      step s = .next t ∧ e.rspReady = false ∧ s'.rsp = some r ∧ s'.inputs = [e'] ∧ e'.rst = false ∧ s'.fault = false ∧
      step s' = .next t' ∧ e'.rspReady = true :=
  ⟨{ unit .r16 0#5 with rsp := some ⟨5#32, 0#5⟩, inputs := [raised 7#68] }, _,
    { unit .r16 0#5 with rsp := some ⟨5#32, 0#5⟩, inputs := [⟨false, none, true⟩] }, _, ⟨5#32, 0#5⟩, raised 7#68, ⟨false, none, true⟩,
    rfl, rfl, rfl, rfl, rfl, rfl, rfl, rfl, rfl, rfl, rfl, rfl⟩

/-- ReadyAndValidDoNotLookAcross -/
theorem witness_two_samples : (raised 0#68).rst = (⟨false, none, true⟩ : Sample).rst := rfl

/-- EachAcceptedRequestGetsOneResponse: an edge that accepts and one that does not. -/
theorem witness_accepting_edges :
    (∃ t : State, step ((unit .r16 0#5).withFetchWord 72 0xE_00000000_00000000) = .next t) ∧
    accepts ((unit .r16 0#5).withFetchWord 72 0xE_00000000_00000000) = some 0xE_00000000_00000000#68 ∧
    step (unit .r16 0#5) = .next (unit .r16 0#5) ∧ accepts (unit .r16 0#5) = none :=
  ⟨⟨_, rfl⟩, by decide, rfl, rfl⟩

/-- OnlyAChangedRequestIsRefused: a request dropped and a request changed. -/
theorem witness_changed_request :
    step { unit .r16 0#5 with held := some 1#68, inputs := [⟨false, none, false⟩] } = .refused .requestChanged ∧
    step { unit .r16 0#5 with held := some 1#68, inputs := [raised 2#68] } = .refused .requestChanged :=
  ⟨rfl, rfl⟩

/-- OnlyAStoppedUnitHasNoStep -/
theorem witness_no_step :
    step { unit .r16 0#5 with fault := true, inputs := [raised 0xC_00000000_00000000#68] } = .fault .stopped := rfl

/-- IdleUnitWaits: no pins listed, and an idle sample. -/
theorem witness_idle :
    (unit .r16 0#5).fault = false ∧ (unit .r16 0#5).inputs = [] ∧ (unit .r16 0#5).rsp = none ∧ (unit .r16 0#5).held = none ∧
    { unit .r16 0#5 with inputs := [⟨false, none, true⟩] }.inputs = { rst := false, req := none, rspReady := true } :: [] := by
  decide

/-- EveryStepKeepsTheStateGood, BuildNeverChanges: a good state with a step that raises a flag. -/
theorem witness_good_step :
    ((unit .r16 0#5).withFetchWord 72 0x0_00000000_00000000).good = true ∧
    step ((unit .r16 0#5).withFetchWord 72 0x0_00000000_00000000) = .next (answersWith (unit .r16 0#5) 0#32 flagILL) :=
  ⟨by decide, rfl⟩

/-- BuildNeverChanges: the machine of one build, whose state does not hold it, reads its CONFIG (R36, 95 section 2.5). -/
theorem witness_build_is_an_argument :
    ∃ u : UnitState, Host.Core.run (coreOn { radix := .r12, assertMask := 0b11111#5 }) 1
        (UnitState.resetWith [raised 0xE_00000000_00000000#68]) = .next u ∧
      u.rsp = some { result := 0x00101F0C#32, flags := 0#5 } :=
  ⟨_, rfl, rfl⟩

/-- PinsRefineTheTransactionView: three edges, a request, its response taken while the next one is raised, that one accepted. -/
theorem witness_run :
    ∃ s t : State, s.fault = false ∧ noResetIn 3 s = true ∧ Host.Core.run core 3 s = .next t ∧
      acceptedIn 3 s = [0x2_00000000_00000000#68, 0xC_00000000_00000000#68] ∧
      t.rsp = some { result := 0x00000004#32, flags := 0#5 } :=
  ⟨{ unit .r16 0#5 with
      inputs := [raised 0x2_00000000_00000000#68, ⟨false, some 0xC_00000000_00000000#68, true⟩,
        raised 0xC_00000000_00000000#68] }, _, rfl, rfl, rfl, rfl, rfl⟩

/-- StatusReportsAGroupOfRequests -/
theorem witness_group :
    optimized (unit .r16 0#5).build = true ∧ resetRegisters.fault = false ∧ resetRegisters.status = 0#5 ∧
    (∀ w ∈ [0x2_00000000_00000000#68, 0xC_00000000_00000000#68], opcodeField w ≠ 0xD#4) :=
  ⟨rfl, rfl, rfl, by
    intro w hw
    rcases List.mem_cons.1 hw with rfl | hw
    · decide
    · rcases List.mem_singleton.1 hw with rfl
      decide⟩

end Sys2Proof.Tests
end

-- Facts about the step as a whole (spec/00_scope.md), and the obligations on R15, R17 and R18.
section

namespace Sys2Proof.Machine

/-! ## The pins -/

@[simp] theorem resetToCome_nil : resetToCome [] = false := rfl

@[simp] theorem resetToCome_cons (e : Sample) (es : List Sample) :
    resetToCome (e :: es) = (e.rst || resetToCome es) := rfl

/-- R43 (a): a raised request is kept when no request stands, or the standing one is raised again. -/
theorem keepsRequest_iff {u : UnitState} {e : Sample} :
    keepsRequest u e = true ↔ u.held = none ∨ e.req = u.held := by
  simp [keepsRequest]

/-! ## One request executed -/

theorem selects_iff {mask f : FlagSet} : selects mask f = true ↔ f &&& mask ≠ 0#5 := by
  simp [selects]

theorem selects_false_iff {mask f : FlagSet} : selects mask f = false ↔ f &&& mask = 0#5 := by
  simp [selects]

/-- A unit that has not stopped executes every request (R17). -/
theorem exec_ne_fault {i : Instr} {s : State} (hf : s.fault = false) (c : Fault) : exec i s ≠ .fault c := by
  rw [exec_eq_commit, Ne, commit_fault_iff, hf]
  exact Bool.false_ne_true

/-- A committed request that leaves the unit running is answered by the value and the flags of its rule. -/
theorem commit_rsp_of_running {s t : State} {r : OpResult} (h : commit s r = .next t) (ht : t.fault = false) :
    t.rsp = some { result := r.value, flags := r.flags } := by
  obtain ⟨-, ⟨-, rfl⟩ | ⟨-, rfl⟩⟩ := commit_next h
  · rw [raiseFault_fault] at ht
    cases ht
  · rfl

/-- STATUS decides nothing about a committed request but the next STATUS (R18). -/
theorem commit_with_status {s t : State} {r : OpResult} (h : commit s r = .next t) (x : FlagSet) :
    ∃ t' : State, commit { s with status := x } r = .next t' ∧
      t'.rsp = t.rsp ∧ t'.fault = t.fault ∧ t'.fcause = t.fcause := by
  obtain ⟨hf, ⟨hs, rfl⟩ | ⟨hs, rfl⟩⟩ := commit_next h
  · exact ⟨_, commit_selected hf hs, rfl, rfl, rfl⟩
  · exact ⟨_, commit_answered hf hs, rfl, rfl, rfl⟩

/-- The rule of an arithmetic operation reads the radix and the operands only (R18). -/
theorem operation_of_arithmetic {i : Instr} (hi : isArithmetic i = true) {b b' : Build} (hr : b.radix = b'.radix)
    (st st' : FlagSet) : operation b st i = operation b' st' i := by
  cases i
  case mul | recip | sqrt | floor | ceil | trunc => simp only [operation, hr]
  all_goals cases hi

/-! ## One edge without a next state -/

/-- A stopped unit with no reset to come is stuck (R147, R158). -/
theorem step_of_stuck {s : State} (hf : s.fault = true) (hc : resetToCome s.inputs = false) :
    step s = .fault .stopped := by
  rw [step_eq_edge]
  cases hi : s.inputs with
  | nil => simp [hf]
  | cons e rest =>
    rw [hi, resetToCome_cons, Bool.or_eq_false_iff] at hc
    obtain ⟨hr, hrest⟩ := hc
    simp [hr, hf, hrest]

/-- A running unit goes on or refuses: none of its edges is a fault. -/
theorem step_ne_fault_of_running {s : State} (hf : s.fault = false) (c : Fault) : step s ≠ .fault c := by
  intro h
  rw [step_eq_edge] at h
  split at h
  · simp [hf] at h
  · rename_i e rest _
    have hexec (w : RequestWord) : exec (decode w) { s with inputs := rest, held := none } ≠ .fault c := by
      apply exec_ne_fault
      exact hf
    split at h
    · cases h
    rw [if_neg (by simp [hf])] at h
    split at h
    · cases h
    split at h
    · cases h
    split at h
    · cases h
    · exact hexec _ h

/-- A stopped unit on its way to a reset goes on (R147). -/
theorem step_ne_fault_of_resetToCome {s : State} (hf : s.fault = true) (hc : resetToCome s.inputs = true) (c : Fault) :
    step s ≠ .fault c := by
  cases hi : s.inputs with
  | nil => simp [hi] at hc
  | cons e rest =>
    cases hr : e.rst with
    | true => simp [step_reset hi hr]
    | false =>
      have hrest : resetToCome rest = true := by simpa [hi, hr] using hc
      simp [step_eq_edge, hi, hr, hf, hrest]

/-- Only a stopped unit with no reset to come is stuck (R158). -/
theorem stuck_of_step_fault {s : State} {c : Fault} (h : step s = .fault c) :
    s.fault = true ∧ resetToCome s.inputs = false := by
  have hf : s.fault = true := by
    by_contra hf
    exact step_ne_fault_of_running (Bool.eq_false_of_not_eq_true hf) c h
  refine ⟨hf, ?_⟩
  by_contra hc
  exact step_ne_fault_of_resetToCome hf (Bool.eq_true_of_not_eq_false hc) c h

/-! ## Values of constants -/

/-- The real value of a word whose integer is known (R14). -/
theorem val_of_sint {w : Word} {z : Int} (h : sint w = z) (r : Radix) : val r w = (z : ℚ) / 2 ^ r.bits := by
  rw [val, h]

theorem sint_oneWord (r : Radix) : sint (oneWord r) = 2 ^ r.bits := by
  cases r <;> rfl

theorem sint_maxMagWord : sint maxMagWord = 2 ^ 31 - 1 := rfl

theorem sint_minPat : sint minPat = -(2 ^ 31) := rfl

@[simp] theorem val_zeroWord (r : Radix) : val r zeroWord = 0 := by
  simp [val_of_sint (show sint zeroWord = 0 from rfl)]

/-- `ONE` is the real number 1 (R15). -/
@[simp] theorem val_oneWord (r : Radix) : val r (oneWord r) = 1 := by
  simp [val_of_sint (sint_oneWord r)]

/-- `MAXMAG` is one unit below `2^(31-F)` (R15). -/
theorem val_maxMagWord (r : Radix) : val r maxMagWord = 2 ^ (31 - r.bits) - 1 / 2 ^ r.bits := by
  rw [val_of_sint sint_maxMagWord]
  cases r <;> norm_num [Radix.bits]

/-- `ULP` is the real number `2^-F` (R15). -/
theorem val_ulp (r : Radix) : val r 0x00000001#32 = 1 / 2 ^ r.bits := by
  simp [val_of_sint (show sint 0x00000001#32 = 1 from rfl)]

/-- `MINPAT` is the real number `-2^(31-F)` (R15). -/
theorem val_minPat (r : Radix) : val r minPat = -2 ^ (31 - r.bits) := by
  rw [val_of_sint sint_minPat]
  cases r <;> norm_num [Radix.bits]

/-- `MAXINT` is the largest whole number that is a Scalar, `2^(31-F) - 1` (R15). -/
theorem val_maxIntWord (r : Radix) : val r (maxIntWord r) = 2 ^ (31 - r.bits) - 1 := by
  have hz : sint (maxIntWord r) = 2 ^ 31 - 2 ^ r.bits := by cases r <;> rfl
  rw [val_of_sint hz]
  cases r <;> norm_num [Radix.bits]

/-- `FRAC_MASK` is the number `2^F - 1` (R15). -/
theorem fracMask_eq_word (r : Radix) : fracMask r = word (2 ^ r.bits - 1) := by
  cases r <;> rfl

/-! ## The obligations -/

/-- Settles O39: the rule of an arithmetic operation is the same at the same radix, and a committed rule does not look at
STATUS. -/
theorem arithmeticResponsesArePure : Obligations.ArithmeticResponsesArePure := by
  refine ⟨fun i s s' t t' hi hr h h' ht ht' => ?_, fun i s t x h1 h2 h => ?_⟩
  · rw [exec_eq_commit] at h h'
    rw [commit_rsp_of_running h ht, commit_rsp_of_running h' ht', operation_of_arithmetic hi hr s.status s'.status]
  · rw [exec_eq_commit, operation_status_free h1 h2 _ _ x] at h
    rw [exec_eq_commit]
    exact commit_with_status h x

/-- Settles O54. -/
theorem onlyAStoppedUnitHasNoStep : Obligations.OnlyAStoppedUnitHasNoStep := by
  intro s c
  constructor
  · exact fun h => ⟨by cases c; rfl, stuck_of_step_fault h⟩
  · rintro ⟨rfl, hf, hc⟩
    exact step_of_stuck hf hc

/-- Settles O1, row by row of the table of R15: the words compute, the values are those of the lemmas above. -/
theorem constantsAreThoseOfTheTable : Obligations.ConstantsAreThoseOfTheTable := by
  refine ⟨rfl, rfl, rfl, rfl, rfl, rfl, rfl, rfl, rfl, rfl, rfl, rfl, rfl, rfl, rfl, fun r => ?_, rfl, rfl,
    val_ulp .r16, val_ulp .r12, ?_, ?_, ?_, ?_⟩
  · exact ⟨fracMask_eq_word r, rfl, rfl, val_oneWord r, sint_oneWord r, val_zeroWord r, val_maxMagWord r⟩
  · exact (val_minPat .r16).trans (by norm_num [Radix.bits])
  · exact (val_minPat .r12).trans (by norm_num [Radix.bits])
  · exact (val_maxIntWord .r16).trans (by norm_num [Radix.bits])
  · exact (val_maxIntWord .r12).trans (by norm_num [Radix.bits])

/-- Settles O13: such an edge is an accepting one (R40), on a unit where no other request stands (R43 (a)). -/
theorem stepRunsTheDecodedRequest : Obligations.StepRunsTheDecodedRequest := by
  constructor
  · intro s w ready rest hf hp hh hi
    have hk : keepsRequest s.toUnitState { rst := false, req := some w, rspReady := ready } = true :=
      keepsRequest_iff.mpr (hh.imp_right Eq.symm)
    exact step_accept hi rfl hf hk hp rfl
  · intro s w hf hw
    have hw72 : w % 2 ^ 72 = w := Nat.mod_eq_of_lt (hw.trans (by decide))
    have h := step_accept (offerWord_inputs s 72 w) rfl hf (keepsRequest_iff.mpr (.inl rfl)) (offerWord_rsp s 72 w) rfl
    rw [hw72] at h
    exact h

/-- Settles O14: every meaning is a `commit` of its operation's rule, and these are the three cases of `commit`. -/
theorem execIsTheStepOfTheSpec : Obligations.ExecIsTheStepOfTheSpec := by
  intro i s r status
  rw [exec_eq_commit]
  exact ⟨fun hf => commit_stopped hf r, fun hf hs => commit_selected hf (selects_iff.mpr hs),
    fun hf hs => commit_answered hf (selects_false_iff.mpr hs)⟩

end Sys2Proof.Machine

end

-- The registers under one request and under one edge (spec/10_state.md), and the obligations on R22, R23, R28, R30, R31, R36
-- and R37.
section

namespace Sys2Proof.Machine

/-! ## Scalars -/

/-- The integer of a word is its real value in units of `2^-F` (R14). -/
theorem val_eq_div_iff {r : Radix} {w : Word} {z : Int} : val r w = (z : ℚ) / 2 ^ r.bits ↔ sint w = z := by
  rw [val, div_left_inj' (by positivity), Int.cast_inj]

theorem val_le_val_iff {r : Radix} {v w : Word} : val r v ≤ val r w ↔ sint v ≤ sint w := by
  rw [val, val, div_le_div_iff_of_pos_right (by positivity), Int.cast_le]

theorem eq_word_of_sint {w : Word} {z : Int} (h : sint w = z) : w = word z := by
  rw [← h, word_sint]

theorem val_eq_zero_iff {r : Radix} {w : Word} : val r w = 0 ↔ w = zeroWord := by
  constructor
  · intro h
    have hz : sint w = 0 := val_eq_div_iff.mp (by simpa using h)
    exact eq_word_of_sint hz
  · rintro rfl
    exact val_zeroWord r

/-- A sign applied to a magnitude that fits never reaches MINPAT (R23). -/
theorem neg_maxMag_le_sint_sword {s : Bool} {m : Nat} (h : m ≤ maxMag) : -(maxMag : Int) ≤ sint (sword s m) := by
  rw [sint_sword h]
  split <;> omega

/-- A word from `SAT(1)` up is not MINPAT (R23). -/
theorem ne_minPat_of_neg_maxMag_le {w : Word} (h : -(maxMag : Int) ≤ sint w) : w ≠ minPat := by
  rintro rfl
  exact absurd h (by decide)

/-! ## The flag of a rule and the value beside it -/

/-- What the rule of an operation can answer: no flag and any value, or a row of the table of R141. -/
inductive FlagRow : OpResult → Prop where
  | clean (v : Word) (clr : FlagSet) : FlagRow { value := v, flags := 0#5, clr := clr }
  | overflow (s : Bool) : FlagRow { value := sat s, flags := flagOVF }
  | underflow : FlagRow { value := zeroWord, flags := flagUNF }
  | divideByZero : FlagRow { value := maxMagWord, flags := flagDZ }
  | invalid : FlagRow { value := zeroWord, flags := flagINV }
  | illegal : FlagRow { value := zeroWord, flags := flagILL }

/-- What MUL and RECIP can answer: a flag with its fallback value, or a sign applied to a magnitude that fits (R82, R92). -/
inductive SignMagnitudeRow : OpResult → Prop where
  | overflow (s : Bool) : SignMagnitudeRow { value := sat s, flags := flagOVF }
  | underflow : SignMagnitudeRow { value := zeroWord, flags := flagUNF }
  | divideByZero : SignMagnitudeRow { value := maxMagWord, flags := flagDZ }
  | signed (s : Bool) {m : Nat} (hm : m ≤ maxMag) : SignMagnitudeRow { value := sword s m, flags := 0#5 }

theorem mulResult_row (r : Radix) (a b : Word) : SignMagnitudeRow (mulResult r a b) := by
  unfold mulResult
  dsimp only
  split
  · exact .signed false (Nat.zero_le _)
  split
  · exact .overflow _
  rename_i hm
  split
  · exact .underflow
  · exact .signed _ (not_lt.mp hm)

theorem recipResult_row (r : Radix) (x : Word) : SignMagnitudeRow (recipResult r x) := by
  unfold recipResult
  dsimp only
  split
  · exact .divideByZero
  split
  · exact .overflow _
  rename_i hq
  split
  · exact .underflow
  · exact .signed _ (not_lt.mp hq)

theorem SignMagnitudeRow.flagRow {r : OpResult} (h : SignMagnitudeRow r) : FlagRow r := by
  cases h with
  | overflow s => exact .overflow s
  | underflow => exact .underflow
  | divideByZero => exact .divideByZero
  | signed s hm => exact .clean _ _

/-- Such a result stays from `SAT(1)` up, so it is not MINPAT (R23). -/
theorem SignMagnitudeRow.neg_maxMag_le {r : OpResult} (h : SignMagnitudeRow r) : -(maxMag : Int) ≤ sint r.value := by
  cases h with
  | overflow s => exact neg_maxMag_le_sint_sword le_rfl
  | underflow | divideByZero => decide
  | signed s hm => exact neg_maxMag_le_sint_sword hm

theorem sqrtResult_flagRow (r : Radix) (x : Word) : FlagRow (sqrtResult r x) := by
  unfold sqrtResult
  split
  · exact .invalid
  · exact .clean _ _

theorem ceilResult_flagRow (r : Radix) (x : Word) : FlagRow (ceilResult r x) := by
  unfold ceilResult
  split
  · exact .overflow false
  · exact .clean _ _

/-- Every operation answers by a row of R141. -/
theorem operation_flagRow (b : Build) (st : FlagSet) (i : Instr) : FlagRow (operation b st i) := by
  cases i
  case mul x y => exact (mulResult_row _ x y).flagRow
  case recip x => exact (recipResult_row _ x).flagRow
  case sqrt x => exact sqrtResult_flagRow _ x
  case ceil x => exact ceilResult_flagRow _ x
  case floor | trunc | rdst | clrst | rdcfg => exact .clean _ _
  all_goals exact .illegal

/-- R28: a request raises zero or one flag. -/
theorem FlagRow.isZeroOrOneHot {r : OpResult} (h : FlagRow r) : isZeroOrOneHot r.flags = true := by
  cases h <;> rfl

/-- R141: each flag comes with its fallback value. -/
theorem FlagRow.fallbackOk {r : OpResult} (h : FlagRow r) :
    fallbackOk { result := r.value, flags := r.flags } = true := by
  cases h
  case overflow s => cases s <;> rfl
  all_goals rfl

/-- A selected flag set is not empty, so a row that stops the unit raises exactly one flag (R146). -/
theorem FlagRow.isOneHot_of_selects {r : OpResult} (h : FlagRow r) {mask : FlagSet}
    (hs : selects mask r.flags = true) : isOneHot r.flags = true := by
  cases h
  case clean => simp at hs
  all_goals rfl

/-! ## STATUS -/

/-- A flag just raised is in STATUS (R17). -/
theorem accumulate_and_flags (st clr f : FlagSet) : accumulate st clr f &&& f = f := by
  ext k hk
  simp +contextual [accumulate]

/-- The only bits that STATUS loses are those the request clears (R28). -/
theorem cleared_of_accumulate {st clr f : FlagSet} {k : Nat} (h : st.getLsbD k = true)
    (h' : (accumulate st clr f).getLsbD k = false) : clr.getLsbD k = true := by
  have hk : k < 5 := BitVec.lt_of_getLsbD h
  simp only [accumulate, BitVec.getLsbD_or, BitVec.getLsbD_and, BitVec.getLsbD_not, Bool.or_eq_false_iff] at h'
  simpa [h, hk] using h'.1

/-- An operation that clears a STATUS bit is a CLRST with that mask bit (R17, R128). -/
theorem clrst_of_operation_clr {b : Build} {st : FlagSet} {i : Instr} {k : Nat}
    (h : (operation b st i).clr.getLsbD k = true) : ∃ m : FlagSet, i = .clrst m ∧ m.getLsbD k = true := by
  by_cases hi : ∀ m : FlagSet, i ≠ .clrst m
  · rw [operation_clr hi] at h
    simp at h
  · push Not at hi
    obtain ⟨m, rfl⟩ := hi
    exact ⟨m, rfl, h⟩

/-! ## The registers after one request -/

theorem exec_inputs {i : Instr} {s t : State} (h : exec i s = .next t) : t.inputs = s.inputs := by
  rw [exec_eq_commit] at h
  obtain ⟨-, ⟨-, rfl⟩ | ⟨-, rfl⟩⟩ := commit_next h <;> rfl

theorem exec_status {i : Instr} {s t : State} (h : exec i s = .next t) :
    t.status = accumulate s.status (operation s.build s.status i).clr (operation s.build s.status i).flags := by
  rw [exec_eq_commit] at h
  obtain ⟨-, ⟨-, rfl⟩ | ⟨-, rfl⟩⟩ := commit_next h <;> rfl

/-- A request sets FAULT exactly when it raises a selected flag (R30). -/
theorem exec_fault {i : Instr} {s t : State} (h : exec i s = .next t) :
    t.fault = selects s.build.assertMask (operation s.build s.status i).flags := by
  rw [exec_eq_commit] at h
  obtain ⟨hf, ⟨hs, rfl⟩ | ⟨hs, rfl⟩⟩ := commit_next h
  · rw [hs, raiseFault_fault]
  · rw [hs, answer_fault, hf]

/-- FCAUSE takes the flags of the request that stops the unit, and no other request writes it (R31). -/
theorem exec_fcause {i : Instr} {s t : State} (h : exec i s = .next t) :
    t.fcause = if t.fault then (operation s.build s.status i).flags else s.fcause := by
  rw [exec_eq_commit] at h
  obtain ⟨hf, ⟨-, rfl⟩ | ⟨-, rfl⟩⟩ := commit_next h
  · rfl
  · rw [answer_fault, hf]
    rfl

/-- A request that stops the unit gets no response; any other is answered by its rule (R17, R146). -/
theorem exec_rsp {i : Instr} {s t : State} (h : exec i s = .next t) :
    t.rsp = if t.fault then none
      else some { result := (operation s.build s.status i).value, flags := (operation s.build s.status i).flags } := by
  rw [exec_eq_commit] at h
  obtain ⟨hf, ⟨-, rfl⟩ | ⟨-, rfl⟩⟩ := commit_next h
  · rfl
  · rw [answer_fault, hf]
    rfl

/-- The flags of a response are those its request raised (R62). -/
theorem exec_rsp_flags {i : Instr} {s t : State} {r : Response} (h : exec i s = .next t) (hr : t.rsp = some r) :
    r.flags = (operation s.build s.status i).flags := by
  rw [exec_rsp h] at hr
  split at hr
  · cases hr
  · cases hr
    rfl

/-- A request that clears nothing and raises no selected flag is answered, and changes no register but STATUS. -/
theorem exec_answersWith {i : Instr} {s : State} (hf : s.fault = false) (hi : ∀ m : FlagSet, i ≠ .clrst m)
    (hs : selects s.build.assertMask (operation s.build s.status i).flags = false) :
    exec i s = .next (answersWith s (operation s.build s.status i).value (operation s.build s.status i).flags) := by
  rw [exec_eq_commit, commit_answered hf hs, answer, operation_clr hi, accumulate_clear_nothing]
  rfl

/-! ## The registers after one edge -/

theorem rstPin_of_nil {s : State} (hi : s.inputs = []) : rstPin s = false := by
  simp [rstPin, hi]

theorem rstPin_of_cons {s : State} {e : Sample} {rest : List Sample} (hi : s.inputs = e :: rest) : rstPin s = e.rst := by
  simp [rstPin, hi]

theorem accepts_of_nil {s : State} (hi : s.inputs = []) : accepts s = none := by
  simp [accepts, hi]

/-- Nothing is accepted while `rst` is 1 (R160). -/
theorem accepts_of_rstPin {s : State} (hr : rstPin s = true) : accepts s = none := by
  cases hi : s.inputs with
  | nil => exact accepts_of_nil hi
  | cons e rest => exact accepts_of_reset hi ((rstPin_of_cons hi).symm.trans hr)

theorem reqReady_of_stopped {s : State} (hf : s.fault = true) : reqReady s = false := by
  simp [reqReady, hf]

/-- What an edge can do to the registers: reset them, leave them and accept nothing, or execute the accepted request. -/
inductive RegisterEdge (s t : State) : Prop where
  | reset (hr : rstPin s = true) (ht : t = State.resetOf s.build s.inputs.tail)
  | kept (hr : rstPin s = false) (ha : accepts s = none) (hg : registersOf t = registersOf s)
      (hb : t.build = s.build) (hi : t.inputs = s.inputs.tail) (hp : t.rsp = none ∨ t.rsp = s.rsp)
  | accept (w : RequestWord) (hr : rstPin s = false) (ha : accepts s = some w) (hf : s.fault = false)
      (ht : exec (decode w) { s with inputs := s.inputs.tail, held := none } = .next t)

/-- Everything an edge can do to the registers. -/
theorem step_registerEdge {s t : State} (h : step s = .next t) : RegisterEdge s t := by
  cases step_next_cases h with
  | quiet hi hf ht =>
    subst ht
    exact .kept (rstPin_of_nil hi) (accepts_of_nil hi) rfl rfl (by simp [hi]) (.inr rfl)
  | reset e rest hi hr ht =>
    exact .reset ((rstPin_of_cons hi).trans hr) (by rw [ht, hi, List.tail_cons])
  | stoppedWait e rest hi hr hf hc ht =>
    subst ht
    exact .kept ((rstPin_of_cons hi).trans hr) (accepts_of_stopped hf) rfl rfl (by simp [hi]) (.inr rfl)
  | busy e rest r hi hr hf hk hp ht =>
    subst ht
    refine .kept ((rstPin_of_cons hi).trans hr) (accepts_of_busy hp) rfl rfl (by simp [hi]) ?_
    cases e.rspReady
    · exact .inr hp.symm
    · exact .inl rfl
  | idle e rest hi hr hf hk hp hq ht =>
    subst ht
    exact .kept ((rstPin_of_cons hi).trans hr) ((accepts_of_ready hi hr hf hk hp).trans hq) rfl rfl (by simp [hi])
      (.inr rfl)
  | accept e rest w hi hr hf hk hp hq ht =>
    exact .accept w ((rstPin_of_cons hi).trans hr) ((accepts_of_ready hi hr hf hk hp).trans hq) hf
      (by rw [hi, List.tail_cons]; exact ht)

/-- No edge changes the build (R36, R163). -/
theorem step_build {s t : State} (h : step s = .next t) : t.build = s.build := by
  cases step_registerEdge h with
  | reset hr ht => rw [ht, resetOf_build]
  | kept hr ha hg hb hi hp => exact hb
  | accept w hr ha hf ht => exact (exec_build ht :)

/-- Each edge consumes one sample of the pins. -/
theorem step_inputs {s t : State} (h : step s = .next t) : t.inputs = s.inputs.tail := by
  cases step_registerEdge h with
  | reset hr ht => rw [ht, resetOf_inputs]
  | kept hr ha hg hb hi hp => exact hi
  | accept w hr ha hf ht => exact exec_inputs ht

/-- FAULT becomes 1 exactly at an accepted request that raises a selected flag (R30). -/
theorem step_sets_fault_iff {s t : State} (h : step s = .next t) (hf : s.fault = false) :
    t.fault = true ↔ ∃ w : RequestWord, accepts s = some w ∧
      selects s.build.assertMask (operation s.build s.status (decode w)).flags = true := by
  cases step_registerEdge h with
  | reset hr ht => simp [ht, accepts_of_rstPin hr]
  | kept hr ha hg hb hi hp =>
    have hfault : t.fault = s.fault := congrArg Registers.fault hg
    simp [ha, hfault, hf]
  | accept w hr ha hf ht => simp [ha, exec_fault ht]

/-! ## The good relation -/

theorem good_iff_of_stopped {s : State} (hf : s.fault = true) :
    s.good = true ↔ isOneHot s.fcause = true ∧ selects s.build.assertMask s.fcause = true ∧
      s.status &&& s.fcause = s.fcause ∧ s.rsp = none := by
  simp [State.good, hf, and_assoc]

theorem good_iff_of_running {s : State} (hf : s.fault = false) :
    s.good = true ↔ s.fcause = 0#5 ∧ ∀ r : Response, s.rsp = some r → responseOk s r = true := by
  cases hp : s.rsp <;> simp [State.good, hf, hp]

theorem responseOk_iff {s : State} {r : Response} :
    responseOk s r = true ↔ isZeroOrOneHot r.flags = true ∧ fallbackOk r = true ∧ s.status &&& r.flags = r.flags ∧
      selects s.build.assertMask r.flags = false := by
  simp [responseOk, and_assoc]

/-- The relation reads the registers, the build and the offered response; a response withdrawn does not break it. -/
theorem good_of_kept {s t : State} (h : s.good = true) (hg : registersOf t = registersOf s) (hb : t.build = s.build)
    (hp : t.rsp = none ∨ t.rsp = s.rsp) : t.good = true := by
  have hstatus : t.status = s.status := congrArg Registers.status hg
  have hfault : t.fault = s.fault := congrArg Registers.fault hg
  have hfcause : t.fcause = s.fcause := congrArg Registers.fcause hg
  cases hf : s.fault with
  | true =>
    rw [good_iff_of_stopped hf] at h
    obtain ⟨hone, hsel, hst, hnone⟩ := h
    rw [hnone, or_self] at hp
    rw [good_iff_of_stopped (hfault.trans hf), hstatus, hfcause, hb]
    exact ⟨hone, hsel, hst, hp⟩
  | false =>
    rw [good_iff_of_running hf] at h
    obtain ⟨hc, hok⟩ := h
    refine (good_iff_of_running (hfault.trans hf)).mpr ⟨hfcause.trans hc, fun r hr => ?_⟩
    have hsr : s.rsp = some r := by
      obtain hp | hp := hp
      · rw [hp] at hr
        cases hr
      · exact hp.symm.trans hr
    rw [responseOk_iff, hstatus, hb, ← responseOk_iff]
    exact hok r hsr

/-- Executing a request on a running unit with FCAUSE 0 leaves a good state, whether it is answered or stops the unit. -/
theorem exec_good {i : Instr} {s t : State} (h : exec i s = .next t) (hc : s.fcause = 0#5) : t.good = true := by
  have hrow := operation_flagRow s.build s.status i
  have hfault := exec_fault h
  have hfcause := exec_fcause h
  have hrsp := exec_rsp h
  cases hf : t.fault with
  | true =>
    rw [hf] at hfault hfcause hrsp
    rw [good_iff_of_stopped hf, hfcause, exec_status h, exec_build h]
    exact ⟨hrow.isOneHot_of_selects hfault.symm, hfault.symm, accumulate_and_flags _ _ _, hrsp⟩
  | false =>
    rw [hf] at hfault hfcause hrsp
    refine (good_iff_of_running hf).mpr ⟨hfcause.trans hc, fun r hr => ?_⟩
    obtain rfl := Option.some.inj (hrsp.symm.trans hr)
    rw [responseOk_iff, exec_status h, exec_build h]
    exact ⟨hrow.isZeroOrOneHot, hrow.fallbackOk, accumulate_and_flags _ _ _, hfault.symm⟩

theorem resetOf_good (b : Build) (es : List Sample) : (State.resetOf b es).good = true := rfl

/-! ## The machine of a build -/

theorem exec_withBuild (b : Build) (i : Instr) (u : UnitState) :
    exec i { toUnitState := u, build := b } = withBuild b (unitExec b i u) :=
  (withBuild_withoutBuild_exec i { toUnitState := u, build := b }).symm

/-- A run with the build beside the state is a run of the machine of that build (R36). -/
theorem run_withBuild (b : Build) (k : Nat) (u : UnitState) :
    Host.Core.run core k { toUnitState := u, build := b } = withBuild b (Host.Core.run (coreOn b) k u) := by
  induction k generalizing u with
  | zero => rfl
  | succ k ih =>
    have hstep : core.step { toUnitState := u, build := b } = withBuild b ((coreOn b).step u) := rfl
    cases hu : (coreOn b).step u with
    | next v => rw [hu] at hstep; rw [run_of_next hu, ← ih v]; exact run_of_next hstep
    | fault c => rw [hu] at hstep; rw [run_of_fault hu]; exact run_of_fault hstep
    | refused c => rw [hu] at hstep; rw [run_of_refused hu]; exact run_of_refused hstep

/-! ## The obligations -/

/-- Settles O56: an edge resets the state, keeps its registers, or executes a request on a running unit, whose FCAUSE is 0. -/
theorem everyStepKeepsTheStateGood : Obligations.EveryStepKeepsTheStateGood := by
  intro s t hs h
  cases step_registerEdge h with
  | reset hr ht => rw [ht, resetOf_good]
  | kept hr ha hg hb hi hp => exact good_of_kept hs hg hb hp
  | accept w hr ha hf ht => exact exec_good ht ((good_iff_of_running hf).mp hs).1

/-- Settles O2: the value of a word is its integer in units of `2^-F`, and the integers are those of 32 bits. -/
theorem scalarsAreTheMultiplesOfAnUlp : Obligations.ScalarsAreTheMultiplesOfAnUlp := by
  intro r
  refine ⟨fun w => ⟨?_, ?_⟩, fun w => ⟨sint w, rfl⟩, fun z hlo hhi => ?_, fun w => val_eq_zero_iff⟩
  · rw [← val_minPat, val_le_val_iff, sint_minPat]
    exact sint_lower w
  · rw [← val_maxMagWord, val_le_val_iff, sint_maxMagWord]
    have := sint_upper w
    omega
  · exact ⟨word z, val_eq_div_iff.mpr (sint_word hlo hhi), fun w' hw' => eq_word_of_sint (val_eq_div_iff.mp hw')⟩

/-- Settles O20: with nothing selected every Scalar operation is answered, and MUL and RECIP re-apply a sign to at most MAXMAG. -/
theorem minPatIsLegalAndNotProducedByMulOrRecip : Obligations.MinPatIsLegalAndNotProducedByMulOrRecip := by
  refine ⟨rfl, fun w => (sint_upper w).ne, fun s b hf hm i hi => ⟨_, _, exec_answersWith hf ?_ ?_⟩, fun r a b => ?_,
    fun r => ?_⟩
  · rintro m rfl
    simp at hi
  · rw [hm, selects_with_no_mask]
  · have hmul := (mulResult_row r a b).neg_maxMag_le
    have hrecip := (recipResult_row r a).neg_maxMag_le
    exact ⟨hmul, ne_minPat_of_neg_maxMag_le hmul, hrecip, ne_minPat_of_neg_maxMag_le hrecip⟩
  · cases r <;> exact ⟨rfl, rfl, rfl⟩

/-- Settles O38. The last part raises OVF, UNF, DZ, INV and ILL, one request after the other. -/
theorem statusIsSticky : Obligations.StatusIsSticky := by
  refine ⟨fun i s t h => ?_, fun s t k h hs ht => ?_, ?_⟩
  · refine ⟨(operation s.build s.status i).flags, (operation_flagRow _ _ i).isZeroOrOneHot, fun r hr => exec_rsp_flags h hr,
      fun hf => ?_, fun hi => ?_⟩
    · rw [exec_fcause h, if_pos hf]
    · rw [exec_status h, operation_clr hi, accumulate_clear_nothing]
  · cases step_registerEdge h with
    | reset hr hreset => exact .inl ⟨hr, by rw [hreset, resetOf_status]⟩
    | kept hr ha hg hb hi hp =>
      have hstatus : t.status = s.status := congrArg Registers.status hg
      rw [hstatus, hs] at ht
      cases ht
    | accept w hr ha hf hexec =>
      rw [exec_status hexec] at ht
      obtain ⟨m, hm, hk⟩ := clrst_of_operation_clr (cleared_of_accumulate hs ht)
      exact .inr ⟨w, m, ha, hm, hk⟩
  · exact ⟨{ radix := .r16, assertMask := 0#5 },
      [encode (.mul minPat minPat), encode (.mul 1#32 1#32), encode (.recip zeroWord), encode (.sqrt minPat),
        encode .illegal0], by decide⟩

/-- Settles O44: only an accepted request can set FAULT, and a stopped unit accepts none before a reset. -/
theorem faultIsSetOnlyBySelectedFlagsAndClearedOnlyByReset :
    Obligations.FaultIsSetOnlyBySelectedFlagsAndClearedOnlyByReset := by
  refine ⟨resetOf_fault, fun s t h hf => ?_, fun s t h hf => ?_,
    fun s hf => ⟨reqReady_of_stopped hf, accepts_of_stopped hf, fun t h hp => ?_⟩, fun s t h hf hm => ?_⟩
  · simpa only [selects_iff] using step_sets_fault_iff h hf
  · cases step_registerEdge h with
    | reset hr ht => exact .inr ⟨hr, by rw [ht, resetOf_fault]⟩
    | kept hr ha hg hb hi hp => exact .inl ((congrArg Registers.fault hg).trans hf)
    | accept w hr ha hrun ht => exact absurd (hrun.symm.trans hf) Bool.false_ne_true
  · cases step_registerEdge h with
    | reset hr ht => rw [ht, resetOf_rsp]
    | kept hr ha hg hb hi hp' => exact hp'.elim id (·.trans hp)
    | accept w hr ha hrun ht => exact absurd (hrun.symm.trans hf) Bool.false_ne_true
  · refine Bool.eq_false_of_not_eq_true fun hfault => ?_
    obtain ⟨w, -, hs⟩ := (step_sets_fault_iff h hf).mp hfault
    rw [hm, selects_with_no_mask] at hs
    cases hs

/-- Settles O45: an edge without reset keeps the registers or executes a request, which writes FCAUSE when it stops the unit. -/
theorem fcauseIsWrittenOnlyAtTheFault : Obligations.FcauseIsWrittenOnlyAtTheFault := by
  refine ⟨resetOf_fcause, fun s t h hr => ?_, fun s => rfl⟩
  cases step_registerEdge h with
  | reset hrst ht => exact absurd (hr.symm.trans hrst) Bool.false_ne_true
  | kept _ ha hg hb hi hp =>
    refine ⟨fun _ => congrArg Registers.fcause hg, fun hf ht => ?_⟩
    have hfault : t.fault = s.fault := congrArg Registers.fault hg
    rw [hfault, hf] at ht
    cases ht
  | accept w _ ha hf ht =>
    refine ⟨fun hsame => ?_, fun _ hset => ⟨w, ha, ?_⟩⟩
    · rw [exec_fcause ht, hsame, hf]
      rfl
    · rw [exec_fcause ht, if_pos hset]

/-- Settles O58; the run of any length is by induction on its edges (`run_withBuild`). -/
theorem buildNeverChanges : Obligations.BuildNeverChanges :=
  ⟨fun _ _ h => ⟨step_build h, step_inputs h⟩, fun _ _ => rfl, exec_withBuild, run_withBuild, fun _ _ => rfl, fun _ => rfl,
    rfl⟩

/-- Settles O48: the next state is the reset state, and both outputs look at `rst`. -/
theorem resetLeavesTheStatedValues : Obligations.ResetLeavesTheStatedValues := by
  intro s e rest hi hr
  have hpin : rstPin s = true := (rstPin_of_cons hi).trans hr
  refine ⟨by simp [reqReady, hpin], by simp [rspValid, hpin], State.resetOf s.build rest, step_reset hi hr, rfl, rfl, rfl, rfl,
    rfl, rfl, rfl, ?_, ?_, rfl, fun hlow => ?_⟩
  · simp [rspValid]
  · simp [rspPayload]
  · simp [reqReady, hlow]

/-- Settles O57: the reset state has FAULT 0 and FCAUSE 0 and offers nothing. -/
theorem resetStateIsGood : Obligations.ResetStateIsGood :=
  ⟨resetOf_good _ _, resetOf_good⟩

end Sys2Proof.Machine

end

-- The two ports edge by edge and the transaction view (spec/20_memory.md), and the obligations on R41, R43, R44, R45 and R53.
section

namespace Sys2Proof.Machine

/-! ## The ports -/

/-- R43 (a): a requester breaks its promise when a request stands and the pins do not offer that request. -/
theorem keepsRequest_eq_false_iff {u : UnitState} {e : Sample} :
    keepsRequest u e = false ↔ ∃ q : RequestWord, u.held = some q ∧ e.req ≠ some q := by
  cases hh : u.held <;> simp [keepsRequest, hh]

/-- While a response is offered the unit is not ready (R44 (d)). -/
theorem reqReady_of_busy {s : State} {r : Response} (hp : s.rsp = some r) : reqReady s = false := by
  simp [reqReady, hp]

/-- The offered response is on the pins while `rst` is 0 (R41). -/
theorem rspPayload_of_busy {s : State} {r : Response} (hr : rstPin s = false) (hp : s.rsp = some r) :
    rspPayload s = some r := by
  simp [rspPayload, rspValid, hr, hp]

/-- Of the pins at the coming edge, `req_ready` looks at `rst` only (R44 (b)). -/
theorem reqReady_congr {s s' : State} (hu : rstPin s = rstPin s') (hf : s.fault = s'.fault) (hp : s.rsp = s'.rsp) :
    reqReady s = reqReady s' := by
  rw [reqReady, reqReady, hu, hf, hp]

/-- Of the pins at the coming edge, `rsp_valid` looks at `rst` only (R44 (b)). -/
theorem rspValid_congr {s s' : State} (hu : rstPin s = rstPin s') (hp : s.rsp = s'.rsp) : rspValid s = rspValid s' := by
  rw [rspValid, rspValid, hu, hp]

/-- The payload is there while `rsp_valid` is, so it too looks at `rst` only. -/
theorem rspPayload_congr {s s' : State} (hu : rstPin s = rstPin s') (hp : s.rsp = s'.rsp) :
    rspPayload s = rspPayload s' := by
  rw [rspPayload, rspPayload, rspValid_congr hu hp, hp]

/-- An edge of a running unit that offers a response takes it or keeps it, and remembers the request raised meanwhile. -/
theorem step_of_busy {s t : State} {r : Response} {e : Sample} {rest : List Sample} (h : step s = .next t)
    (hi : s.inputs = e :: rest) (hr : e.rst = false) (hf : s.fault = false) (hp : s.rsp = some r) :
    t = { s with inputs := rest, held := e.req, rsp := if e.rspReady then none else some r } := by
  cases step_next_cases h with
  | quiet hi' _ _ => cases hi.symm.trans hi'
  | reset e' rest' hi' hr' _ =>
    cases hi.symm.trans hi'
    cases hr.symm.trans hr'
  | stoppedWait _ _ _ _ hf' _ _ => cases hf.symm.trans hf'
  | busy e' rest' r' hi' _ _ _ hp' ht =>
    cases hi.symm.trans hi'
    cases hp.symm.trans hp'
    exact ht
  | idle _ _ _ _ _ _ hp' _ _ => cases hp.symm.trans hp'
  | accept _ _ _ _ _ _ _ hp' _ _ => cases hp.symm.trans hp'

/-- A requester that breaks its promise to a running unit is refused (R43 (a), U1). -/
theorem step_of_requestChanged {s : State} {e : Sample} {rest : List Sample} (hi : s.inputs = e :: rest)
    (hr : e.rst = false) (hf : s.fault = false) (hk : keepsRequest s.toUnitState e = false) :
    step s = .refused .requestChanged := by
  simp [step_eq_edge, hi, hr, hf, hk]

/-- Everything that makes an edge refused: executing a request never does. -/
theorem requestChanged_of_step_refused {s : State} {c : Refusal} (h : step s = .refused c) :
    c = .requestChanged ∧ s.fault = false ∧ ∃ (e : Sample) (rest : List Sample), s.inputs = e :: rest ∧ e.rst = false ∧
      keepsRequest s.toUnitState e = false := by
  rw [step_eq_edge] at h
  split at h
  · split at h <;> cases h
  · rename_i e rest hi
    split at h
    · cases h
    rename_i hr
    split at h
    · split at h <;> cases h
    rename_i hf
    split at h
    · rename_i hk
      cases h
      exact ⟨rfl, by simpa using hf, e, rest, hi, by simpa using hr, by simpa using hk⟩
    split at h
    · cases h
    split at h
    · cases h
    · rw [exec_eq_commit] at h
      exact absurd h (commit_not_refused _ _ c)

/-! ## The transaction view -/

/-- Executing a request is one step of the transaction view: the registers after it, and the response it offers. -/
theorem transact_of_exec {s t : State} {w : RequestWord} (h : exec (decode w) s = .next t) :
    transact s.build (registersOf s) w = (registersOf t, t.rsp) := by
  rw [exec_eq_commit] at h
  obtain ⟨hf, ⟨hs, rfl⟩ | ⟨hs, rfl⟩⟩ := commit_next h
  · rw [selects_iff] at hs
    simp [transact, hs, registersOf, accumulate]
  · rw [selects_false_iff] at hs
    simp [transact, hs, registersOf, accumulate]

/-- On an optimized build a request that is no CLRST only adds its flags to STATUS, and its response carries them (R145). -/
theorem transact_of_optimized {b : Build} {g : Registers} {w : RequestWord} (hb : optimized b = true)
    (hw : ∀ m : FlagSet, decode w ≠ .clrst m) :
    transact b g w = ({ g with status := g.status ||| (operation b g.status (decode w)).flags },
      some { result := (operation b g.status (decode w)).value, flags := (operation b g.status (decode w)).flags }) := by
  have hm : b.assertMask = 0#5 := by simpa [optimized] using hb
  have hclear : g.status &&& ~~~0#5 = g.status := BitVec.and_allOnes
  simp only [transact, hm, operation_clr hw, hclear, BitVec.and_zero, if_true]

@[simp] theorem transactAll_nil (b : Build) (g : Registers) : transactAll b g [] = (g, []) := rfl

/-- A running unit takes the first request of a sequence, and the rest follows from the registers it leaves. -/
theorem transactAll_cons {b : Build} {g : Registers} (hf : g.fault = false) (w : RequestWord) (ws : List RequestWord) :
    transactAll b g (w :: ws) =
      ((transactAll b (transact b g w).1 ws).1, (transact b g w).2 :: (transactAll b (transact b g w).1 ws).2) := by
  simp [transactAll, hf]

/-! ## The transactions of a run -/

theorem acceptedIn_succ {k : Nat} {s u : State} (h : step s = .next u) :
    acceptedIn (k + 1) s = (accepts s).toList ++ acceptedIn k u := by
  rw [acceptedIn, h]

theorem answeredIn_succ {k : Nat} {s u : State} (h : step s = .next u) :
    answeredIn (k + 1) s = (if (accepts s).isSome then [u.rsp] else []) ++ answeredIn k u := by
  rw [answeredIn, h]

/-- No reset among the next edges: none at the first of them, and none among those after it. -/
theorem noResetIn_succ {k : Nat} {s u : State} (hn : noResetIn (k + 1) s = true) (h : step s = .next u) :
    rstPin s = false ∧ noResetIn k u = true := by
  cases hi : s.inputs with
  | nil => exact ⟨rstPin_of_nil hi, by simp [noResetIn, step_inputs h, hi]⟩
  | cons e rest =>
    obtain ⟨hr, hrest⟩ : e.rst = false ∧ resetToCome (rest.take k) = false := by
      simpa [noResetIn, hi] using hn
    exact ⟨(rstPin_of_cons hi).trans hr, by simp [noResetIn, step_inputs h, hi, hrest]⟩

/-- The simulation of R45, from any state: a run without reset is the transaction view of the requests it accepts. Each edge
either keeps the registers and accepts nothing, or is one step of the view. -/
theorem transactAll_of_run {k : Nat} {s t : State} (hn : noResetIn k s = true) (hrun : Host.Core.run core k s = .next t) :
    transactAll s.build (registersOf s) (acceptedIn k s) = (registersOf t, answeredIn k s) := by
  induction k generalizing s with
  | zero =>
    cases run_zero_next hrun
    rfl
  | succ k ih =>
    obtain ⟨u, hstep, hrest⟩ := run_succ_next hrun
    obtain ⟨hrst, hnu⟩ := noResetIn_succ hn hstep
    have hu := ih hnu hrest
    rw [acceptedIn_succ hstep, answeredIn_succ hstep]
    cases step_registerEdge hstep with
    | reset hr _ => cases hrst.symm.trans hr
    | kept _ ha hg hb _ _ =>
      rw [hb, hg] at hu
      simpa [ha] using hu
    | accept w _ ha hf hexec =>
      have hone : transact s.build (registersOf s) w = (registersOf u, u.rsp) := (transact_of_exec hexec :)
      rw [step_build hstep] at hu
      simp [ha, transactAll_cons (g := registersOf s) hf, hone, hu]

/-! ## The flags of a group of requests -/

/-- Every operation is that of the opcode of its word (R64, R65). -/
theorem opcodeOf_decode (w : RequestWord) : opcodeOf (decode w) = opcodeField w := by
  unfold decode
  generalize opcodeField w = op
  obtain ⟨⟨n, hn⟩⟩ := op
  interval_cases n <;> rfl

theorem decode_ne_clrst {w : RequestWord} (hw : opcodeField w ≠ 0xD#4) (m : FlagSet) : decode w ≠ .clrst m := by
  intro h
  rw [← opcodeOf_decode, h] at hw
  exact hw rfl

/-- On an optimized build a group of requests without a CLRST adds the flags of its responses to STATUS. -/
theorem status_of_transactAll {b : Build} (hb : optimized b = true) {g : Registers} (hf : g.fault = false)
    {ws : List RequestWord} (hws : ∀ w ∈ ws, opcodeField w ≠ 0xD#4) :
    (transactAll b g ws).1.status =
      ((transactAll b g ws).2.filterMap id).foldl (fun acc r => acc ||| r.flags) g.status := by
  induction ws generalizing g with
  | nil => rfl
  | cons w ws ih =>
    obtain ⟨hw, hrest⟩ := List.forall_mem_cons.mp hws
    rw [transactAll_cons hf, transact_of_optimized hb (decode_ne_clrst hw)]
    exact ih hf hrest

/-- A union of flag sets is empty exactly when each of them is. -/
theorem foldl_flags_eq_zero_iff {rs : List Response} {st : FlagSet} :
    rs.foldl (fun acc r => acc ||| r.flags) st = 0#5 ↔ st = 0#5 ∧ ∀ r ∈ rs, r.flags = 0#5 := by
  induction rs generalizing st with
  | nil => simp
  | cons r rs ih => rw [List.foldl_cons, ih, BitVec.or_eq_zero_iff, List.forall_mem_cons, and_assoc]

/-- RDST answers 0 exactly when STATUS is empty (R127). -/
theorem flagImage_eq_zero_iff (f : FlagSet) : flagImage f = 0#32 ↔ f = 0#5 := by
  revert f; decide

/-! ## The obligations -/

/-- Settles O59, by `transactAll_of_run`. -/
theorem pinsRefineTheTransactionView : Obligations.PinsRefineTheTransactionView := by
  intro k s t _ hn hrun
  rw [transactAll_of_run hn hrun]
  exact ⟨rfl, rfl⟩

/-- Settles O52: only an edge that executes a request writes a response. -/
theorem eachAcceptedRequestGetsOneResponse : Obligations.EachAcceptedRequestGetsOneResponse := by
  intro s t h
  cases step_registerEdge h with
  | reset hr ht => exact ⟨by simp [accepts_of_rstPin hr], fun _ => .inl (by rw [ht, resetOf_rsp])⟩
  | kept _ ha _ _ _ hp => exact ⟨by simp [ha], fun _ => hp⟩
  | accept w _ ha _ hexec =>
    have hrsp := exec_rsp hexec
    refine ⟨fun _ _ => ?_, fun hnone => by cases hnone.symm.trans ha⟩
    cases hfault : t.fault with
    | true => exact .inr ⟨rfl, by simpa [hfault] using hrsp⟩
    | false => exact .inl ⟨rfl, _, by simpa [hfault] using hrsp⟩

/-- Settles O53: a refused edge is one at which the requester breaks its promise of R43 (a), and the other way round. -/
theorem onlyAChangedRequestIsRefused : Obligations.OnlyAChangedRequestIsRefused := by
  intro s c
  constructor
  · intro h
    obtain ⟨hc, hf, e, rest, hi, hr, hk⟩ := requestChanged_of_step_refused h
    obtain ⟨q, hq, hne⟩ := keepsRequest_eq_false_iff.mp hk
    exact ⟨hc, hf, e, rest, q, hi, hr, hq, hne⟩
  · rintro ⟨rfl, hf, e, rest, q, hi, hr, hq, hne⟩
    exact step_of_requestChanged hi hr hf (keepsRequest_eq_false_iff.mpr ⟨q, hq, hne⟩)

/-- Settles O60: STATUS holds the union of the flags of the responses, which is what RDST then shows. -/
theorem statusReportsAGroupOfRequests : Obligations.StatusReportsAGroupOfRequests := by
  intro b g ws hb hf hst hws out
  have hunion : out.1.status = (out.2.filterMap id).foldl (fun acc r => acc ||| r.flags) 0#5 := by
    rw [← hst]
    exact status_of_transactAll hb hf hws
  refine ⟨hunion, ?_⟩
  calc (rdstResult out.1.status).value = 0#32
      ↔ out.1.status = 0#5 := flagImage_eq_zero_iff _
    _ ↔ (0#5 : FlagSet) = 0#5 ∧ ∀ r ∈ out.2.filterMap id, r.flags = 0#5 := by rw [hunion, foldl_flags_eq_zero_iff]
    _ ↔ ∀ r ∈ out.2.filterMap id, r.flags = 0#5 := and_iff_right rfl

/-- Settles O50: such an edge is the busy one (`step_of_busy`). -/
theorem offeredResponseStaysUntilTaken : Obligations.OfferedResponseStaysUntilTaken := by
  intro s t r e rest hp hi hr hf h
  have ht := step_of_busy h hi hr hf hp
  subst ht
  refine ⟨reqReady_of_busy hp, accepts_of_busy hp, rspPayload_of_busy ((rstPin_of_cons hi).trans hr) hp, rfl, rfl,
    fun hready => ?_, fun hready => ?_⟩
  · exact if_neg (by rw [hready]; exact Bool.false_ne_true)
  · exact if_pos hready

/-- Settles O51: the two samples agree on `rst`, the one pin these outputs look at. -/
theorem readyAndValidDoNotLookAcross : Obligations.ReadyAndValidDoNotLookAcross := by
  intro s e e' rest hr
  exact ⟨reqReady_congr hr rfl rfl, rspValid_congr hr rfl, rspPayload_congr hr rfl⟩

end Sys2Proof.Machine

end

-- The request and response words, the decoder, the encoder and the assembler (spec/30_encoding.md), and the obligations on R60,
-- R61, R62, R64 and R70 to R73.
section

namespace Sys2Proof.Machine

/-! ## The mask of format M -/

/-- CLRST reads back the mask that its encoding writes (R61, R70). -/
theorem maskOf_setWidth (m : FlagSet) : maskOf (m.setWidth 32) = m := by
  revert m; decide

/-- The mask is the five low bits of the operand, which are all that its encoding writes (R61, R128). -/
theorem setWidth_maskOf (a : Word) : (maskOf a).setWidth 32 = a &&& 0x1F#32 := by
  have hlow : a.toNat &&& 0x1F = a.toNat % 2 ^ 5 := Nat.and_two_pow_sub_one_eq_mod a.toNat 5
  apply BitVec.eq_of_toNat_eq
  simp [maskOf, hlow]
  omega

/-! ## The decoder and the encoder -/

/-- The format column of R64. -/
theorem formatOf_eq (op : BitVec 4) : formatOf op =
    if op = 0x1#4 then .B
    else if op = 0x2#4 ∨ op = 0x3#4 ∨ op = 0x4#4 ∨ op = 0x5#4 ∨ op = 0x6#4 then .U
    else if op = 0xD#4 then .M
    else .N := by
  revert op; decide

/-- Decoding gives back every operation with its operands (R60, R64, R70). -/
theorem decode_encode (i : Instr) : decode (encode i) = i := by
  cases i with
  | mul a b => simp [encode, decode, opcodeField_requestWord, operandA_requestWord, operandB_requestWord]
  | recip a | sqrt a | floor a | ceil a | trunc a =>
    simp [encode, decode, opcodeField_requestWord, operandA_requestWord]
  | clrst m => simp [encode, decode, opcodeField_requestWord, operandA_requestWord, maskOf_setWidth]
  | illegal0 | illegal7 | illegal8 | illegal9 | illegalA | illegalB | rdst | rdcfg | illegalF => rfl

/-- Encoding clears the ignored bits of what was decoded (R61, R65, R70): row by row of R64, the encoder writes the fields that
the format reads. -/
theorem encode_decode (w : RequestWord) : encode (decode w) = canonicalWord w := by
  obtain ⟨op, a, b, rfl⟩ : ∃ op a b, requestWord op a b = w := ⟨_, _, _, requestWord_of_fields w⟩
  rw [canonicalWord_requestWord, ← setWidth_maskOf]
  unfold decode
  rw [opcodeField_requestWord, operandA_requestWord, operandB_requestWord]
  obtain ⟨⟨n, hn⟩⟩ := op
  interval_cases n <;> rfl

/-- An operation depends on the bits its format reads alone (R61). -/
theorem decode_eq_of_canonicalWord_eq {w w' : RequestWord} (h : canonicalWord w = canonicalWord w') : decode w = decode w' := by
  rw [← decode_encode (decode w), ← decode_encode (decode w'), encode_decode, encode_decode, h]

theorem isCanonical_iff {w : RequestWord} : isCanonical w = true ↔ canonicalWord w = w := by
  simp [isCanonical]

/-- The encoder writes canonical words only (R70). -/
theorem isCanonical_encode (i : Instr) : isCanonical (encode i) = true := by
  rw [isCanonical_iff, ← encode_decode, decode_encode]

/-! ## The response word -/

/-- The five flags are the five bits of a flag set, in the order of R27. -/
theorem getLsbD_eq_and_flag (f : FlagSet) :
    f.getLsbD 0 = (f &&& flagOVF != 0#5) ∧ f.getLsbD 1 = (f &&& flagUNF != 0#5) ∧ f.getLsbD 2 = (f &&& flagDZ != 0#5) ∧
    f.getLsbD 3 = (f &&& flagINV != 0#5) ∧ f.getLsbD 4 = (f &&& flagILL != 0#5) := by
  revert f; decide

/-- The bits of a response word above the result are those of the flags (R62). -/
theorem responseWord_getLsbD_flags (r : Response) (k : Nat) : (responseWord r).getLsbD (32 + k) = r.flags.getLsbD k := by
  have happend : (responseWord r).getLsbD (32 + k) = (r.flags ++ r.result).getLsbD (32 + k) := rfl
  rw [happend, BitVec.getLsbD_append, if_neg (by omega), Nat.add_sub_cancel_left]

/-! ## The assembler on parsed lines -/

/-- A number of units with the sign that a literal was written with (R71). -/
def signedUnits (negative : Bool) (n : Nat) : Int := if negative then -(n : Int) else (n : Int)

@[simp] theorem signedUnits_false (n : Nat) : signedUnits false n = n := rfl

@[simp] theorem signedUnits_true (n : Nat) : signedUnits true n = -(n : Int) := rfl

/-- A whole number of parts of size `d` makes up a signed number exactly when it makes up the magnitude, with the same sign. -/
theorem mul_eq_signedUnits_iff {negative : Bool} {z : Int} {m d : Nat} (hd : 0 < d) :
    z * d = signedUnits negative m ↔ ∃ n : Nat, m = n * d ∧ z = signedUnits negative n := by
  have hd' : (0 : Int) < d := by exact_mod_cast hd
  constructor
  · intro h
    cases negative with
    | false =>
      have hz : 0 ≤ z := nonneg_of_mul_nonneg_left (by rw [h]; exact Int.natCast_nonneg m) hd'
      lift z to Nat using hz
      rw [signedUnits_false] at h
      exact ⟨z, by exact_mod_cast h.symm, rfl⟩
    | true =>
      have hneg : -z * d = m := by rw [neg_mul, h, signedUnits_true, neg_neg]
      have hz : 0 ≤ -z := nonneg_of_mul_nonneg_left (by rw [hneg]; exact Int.natCast_nonneg m) hd'
      obtain ⟨n, hn⟩ := Int.eq_ofNat_of_zero_le hz
      rw [hn] at hneg
      exact ⟨n, by exact_mod_cast hneg.symm, by rw [signedUnits_true, ← hn, neg_neg]⟩
  · rintro ⟨n, rfl, rfl⟩
    cases negative <;> simp

/-- A literal that is no whole number of units is an error (R71). -/
theorem literalWord_real_of_inexact {r : Radix} {digits decimals : Nat} (negative : Bool)
    (h : digits * 2 ^ r.bits % 10 ^ decimals ≠ 0) : literalWord r (.real negative digits decimals) = none := by
  simp [literalWord, h]

/-- A literal of `n` units is the word of that value when it is in the range of R22, else an error (R71). -/
theorem literalWord_real_of_units {r : Radix} {digits decimals n : Nat} (negative : Bool)
    (h : digits * 2 ^ r.bits = n * 10 ^ decimals) : literalWord r (.real negative digits decimals) =
      if -(2 ^ 31) ≤ signedUnits negative n ∧ signedUnits negative n < 2 ^ 31 then some (word (signedUnits negative n))
      else none := by
  have hmod : digits * 2 ^ r.bits % 10 ^ decimals = 0 := by rw [h, Nat.mul_mod_left]
  have hdiv : digits * 2 ^ r.bits / 10 ^ decimals = n := by rw [h, Nat.mul_div_cancel n (by positivity)]
  cases negative with
  | false =>
    have hrange : -(2 ^ 31) ≤ (n : Int) ∧ (n : Int) < 2 ^ 31 ↔ n < 2 ^ 31 := by omega
    simp only [literalWord, hmod, hdiv, signedUnits_false, hrange]
    simp
  | true =>
    have hrange : -(2 ^ 31) ≤ -(n : Int) ∧ -(n : Int) < 2 ^ 31 ↔ n ≤ 2 ^ 31 := by omega
    simp only [literalWord, hmod, hdiv, signedUnits_true, hrange]
    simp

/-- A real literal is the word whose integer, in units of `2^-F`, is the literal (R71). -/
theorem literalWord_real_eq_some_iff {r : Radix} {negative : Bool} {digits decimals : Nat} {w : Word} :
    literalWord r (.real negative digits decimals) = some w ↔
      sint w * (10 ^ decimals : Nat) = signedUnits negative (digits * 2 ^ r.bits) := by
  rw [mul_eq_signedUnits_iff (by positivity)]
  constructor
  · intro h
    by_cases hexact : digits * 2 ^ r.bits % 10 ^ decimals = 0
    · have hunits := (Nat.div_mul_cancel (Nat.dvd_of_mod_eq_zero hexact)).symm
      rw [literalWord_real_of_units negative hunits] at h
      split at h
      · next hrange =>
        cases h
        exact ⟨_, hunits, sint_word hrange.1 hrange.2⟩
      · cases h
    · rw [literalWord_real_of_inexact negative hexact] at h
      cases h
  · rintro ⟨n, hunits, hw⟩
    rw [literalWord_real_of_units negative hunits, ← hw, if_pos ⟨sint_lower w, sint_upper w⟩, word_sint]

/-- The value of a word is a decimal exactly when its integer is the decimal in units of `2^-F` (R20, R71). -/
theorem val_eq_decimal_iff {r : Radix} {negative : Bool} {digits decimals : Nat} {w : Word} :
    val r w = (if negative then -1 else 1) * (digits : ℚ) / 10 ^ decimals ↔
      sint w * (10 ^ decimals : Nat) = signedUnits negative (digits * 2 ^ r.bits) := by
  have hsigned : ((signedUnits negative (digits * 2 ^ r.bits) : Int) : ℚ) =
      (if negative then -1 else 1) * (digits : ℚ) * 2 ^ r.bits := by
    cases negative <;> simp
  rw [val, div_eq_div_iff (by positivity) (by positivity), ← hsigned]
  norm_cast

/-! ## Well-formed lines -/

/-- A Scalar operand has a word exactly when it is well formed (R71). -/
theorem literalWord_isSome (r : Radix) (l : Literal) : (literalWord r l).isSome = l.wellFormed r := by
  cases l with
  | hex w => rfl
  | real negative digits decimals =>
    simp only [literalWord, Literal.wellFormed]
    split_ifs <;> simp_all

theorem maskValue_isSome (m : MaskOperand) : (maskValue m).isSome = m.wellFormed := by
  cases m with
  | number n => simp only [maskValue, MaskOperand.wellFormed]; split <;> simp_all
  | flags first more => rfl

theorem reservedInstr_isSome (op : BitVec 4) : (reservedInstr op).isSome = isReserved op := by
  unfold reservedInstr
  cases isReserved op <;> rfl

/-- A line stands for an operation exactly when it is well formed (R70 to R72). -/
theorem lineInstr_isSome (r : Radix) (l : AsmLine) : (lineInstr r l).isSome = l.wellFormed r := by
  cases l with
  | mul a b =>
    simp only [lineInstr, AsmLine.wellFormed, ← literalWord_isSome]
    cases literalWord r a <;> cases literalWord r b <;> rfl
  | recip a | sqrt a | floor a | ceil a | trunc a | sqr a =>
    simp only [lineInstr, AsmLine.wellFormed, bind_pure_comp, Option.map_eq_map, Option.isSome_map, literalWord_isSome]
  | clrst m => simp only [lineInstr, AsmLine.wellFormed, bind_pure_comp, Option.map_eq_map, Option.isSome_map, maskValue_isSome]
  | illegal op => exact reservedInstr_isSome op
  | rdst | rdcfg | clrall => rfl

theorem maskValue_number_toNat (m : FlagSet) : maskValue (.number m.toNat) = some m := by
  revert m; decide

/-- The disassembler prints the operation it decodes (R70). -/
theorem lineInstr_disassemble (r : Radix) (w : RequestWord) : lineInstr r (disassemble w) = some (decode w) := by
  unfold disassemble
  cases decode w with
  | clrst m => simp [lineInstr, maskValue_number_toNat]
  | mul a b | recip a | sqrt a | floor a | ceil a | trunc a => rfl
  | illegal0 | illegal7 | illegal8 | illegal9 | illegalA | illegalB | rdst | rdcfg | illegalF => rfl

/-! ## The worked lines as text -/

/-- The lines of R73 as the parser reads them, whatever the radix. -/
theorem parseLine_worked :
    parseLine "mul 1.5, 2.0" = some (.mul (.real false 15 1) (.real false 20 1)) ∧
    parseLine "recip 4.0" = some (.recip (.real false 40 1)) ∧
    parseLine "sqrt 9.0" = some (.sqrt (.real false 90 1)) ∧
    parseLine "floor -1.5" = some (.floor (.real true 15 1)) ∧
    parseLine "ceil -1.5" = some (.ceil (.real true 15 1)) ∧
    parseLine "trunc -1.5" = some (.trunc (.real true 15 1)) ∧
    parseLine "rdst" = some .rdst ∧
    parseLine "clrst OVF|DZ" = some (.clrst (.flags .ovf [.dz])) ∧
    parseLine "rdcfg" = some .rdcfg ∧
    parseLine ".illegal 0x7" = some (.illegal 0x7#4) := by decide

/-! ## The obligations -/

/-- Settles O7, by `decode_encode`. -/
theorem decodeInvertsEncode : Obligations.DecodeInvertsEncode :=
  fun i _ => decode_encode i

/-- Settles O6: equal canonical words are one operation, and so have one outcome. -/
theorem ignoredBitsHaveNoEffect : Obligations.IgnoredBitsHaveNoEffect := by
  refine ⟨fun op a b => ?_, formatOf_eq, fun w w' s _ h => ?_⟩
  · have hop : op &&& 0xF#4 = op := BitVec.and_allOnes
    have hword (x : Word) : x &&& 0xFFFFFFFF#32 = x := BitVec.and_allOnes
    simp [readBits_B, readBits_U, readBits_M, readBits_N, requestWord_and, hop, hword]
  · have hdecode : decode w = decode w' := decode_eq_of_canonicalWord_eq h
    exact ⟨hdecode, by rw [hdecode]⟩

/-- Settles O8, by `encode_decode`. -/
theorem encodeInvertsDecodeUpToIgnoredBits : Obligations.EncodeInvertsDecodeUpToIgnoredBits :=
  fun w => ⟨encode_decode w, fun h => (encode_decode w).trans (isCanonical_iff.mp h)⟩

/-- Settles O11: a line that assembles is the encoding of its operation. -/
theorem assemblerEmitsCanonicalWords : Obligations.AssemblerEmitsCanonicalWords := by
  refine ⟨fun r w => ?_, fun r l w h => ?_, fun r a => ⟨?_, rfl⟩⟩
  · rw [assemble, lineInstr_disassemble, Option.map_some, encode_decode]
  · obtain ⟨i, hi, rfl⟩ := Option.map_eq_some_iff.mp h
    exact ⟨isCanonical_encode i, by rw [← lineInstr_isSome, hi, Option.isSome_some]⟩
  · simp only [assemble, lineInstr]
    cases literalWord r a <;> rfl

/-- Settles O12: the word and the literal are the same number of units. -/
theorem realLiteralsAreExact : Obligations.RealLiteralsAreExact := by
  intro r negative digits decimals real
  have hword (w : Word) : literalWord r (.real negative digits decimals) = some w ↔ val r w = real :=
    literalWord_real_eq_some_iff.trans val_eq_decimal_iff.symm
  exact ⟨fun w => (hword w).mp, Option.eq_none_iff_forall_ne_some.trans (forall_congr' fun w => not_congr (hword w))⟩

/-- Settles O3, by the fields of the word. -/
theorem requestWordHoldsItsThreeFields : Obligations.RequestWordHoldsItsThreeFields :=
  fun op a b => ⟨opcodeField_requestWord op a b, operandA_requestWord op a b, operandB_requestWord op a b,
    requestWord_toNat op a b⟩

/-- Settles O4: bit `32 + k` of the response word is bit `k` of the flags. -/
theorem responseWordHoldsItsTwoFields : Obligations.ResponseWordHoldsItsTwoFields := by
  intro r
  obtain ⟨hovf, hunf, hdz, hinv, hill⟩ := getLsbD_eq_and_flag r.flags
  have hbit := responseWord_getLsbD_flags r
  exact ⟨BitVec.extractLsb'_append_eq_left, BitVec.extractLsb'_append_eq_right, append_toNat r.flags r.result,
    (hbit 0).trans hovf, (hbit 1).trans hunf, (hbit 2).trans hdz, (hbit 3).trans hinv, (hbit 4).trans hill⟩

/-- Settles O5: the decoder reads the opcode and the operands of R60. -/
theorem decodeFollowsTheOpcodeMap : Obligations.DecodeFollowsTheOpcodeMap := by
  refine ⟨formatOf_eq, fun a b => ?_⟩
  simp [decode, opcodeField_requestWord, operandA_requestWord, operandB_requestWord, maskOf]

/-- Settles O9: each line is read once, for both radices, and then assembled. -/
theorem workedEncodingsAssemble : Obligations.WorkedEncodingsAssemble := by
  obtain ⟨hmul, hrecip, hsqrt, hfloor, hceil, htrunc, hrdst, hclrst, hrdcfg, hillegal⟩ := parseLine_worked
  simp only [Obligations.WorkedEncodingsAssemble, assembleText, hmul, hrecip, hsqrt, hfloor, hceil, htrunc, hrdst, hclrst,
    hrdcfg, hillegal, Option.bind_some]
  refine ⟨rfl, rfl, rfl, rfl, rfl, rfl, rfl, rfl, rfl, rfl, rfl, rfl, fun r => ⟨rfl, rfl, rfl, rfl⟩⟩

/-- Settles O10, each word by evaluating the decoder on it. -/
theorem workedEncodingsDecode : Obligations.WorkedEncodingsDecode :=
  ⟨rfl, rfl, rfl, rfl, rfl, rfl, rfl, rfl, rfl, rfl⟩

end Sys2Proof.Machine

end

-- MUL (spec/41_multiply.md): its answer as a rule of the sign and the exact product of the magnitudes, and the obligations on
-- R81, R82, R85 and R88.
section

namespace Sys2Proof.Machine

/-! ## Signs and magnitudes -/

theorem mag_le (w : Word) : mag w ≤ 2 ^ 31 := by
  have hlow := sint_lower w
  have hhigh := sint_upper w
  unfold mag
  omega

/-- Every word but MINPAT has a magnitude that fits (R23). -/
theorem mag_le_maxMag {w : Word} (h : w ≠ minPat) : mag w ≤ maxMag := by
  have hne : sint w ≠ -(2 ^ 31) := fun hw => h (eq_word_of_sint hw)
  have hlow := sint_lower w
  have hhigh := sint_upper w
  unfold mag maxMag
  omega

theorem mag_oneWord (r : Radix) : mag (oneWord r) = 2 ^ r.bits := by
  cases r <;> rfl

theorem sgn_oneWord (r : Radix) : sgn (oneWord r) = false := by
  cases r <;> rfl

@[simp] theorem sword_zero (s : Bool) : sword s 0 = zeroWord := by
  cases s <;> rfl

/-- A sign applied to a magnitude that fits leaves the magnitude as it is. -/
theorem mag_sword {s : Bool} {m : Nat} (h : m ≤ maxMag) : mag (sword s m) = m := by
  rw [mag, sint_sword h]
  split <;> omega

/-- The other sign on the same magnitude is the negated value. -/
theorem sword_not {s : Bool} {m : Nat} (h : m ≤ maxMag) : sword (!s) m = word (-sint (sword s m)) := by
  rw [sint_sword h]
  cases s <;> simp [sword]

/-- Only MINPAT has no negation among the words (R23). -/
theorem sint_word_neg {w : Word} (h : w ≠ minPat) : sint (word (-sint w)) = -sint w := by
  have hne : sint w ≠ -(2 ^ 31) := fun hw => h (eq_word_of_sint hw)
  have hlow := sint_lower w
  have hhigh := sint_upper w
  exact sint_word (by omega) (by omega)

theorem mag_word_neg {w : Word} (h : w ≠ minPat) : mag (word (-sint w)) = mag w := by
  rw [mag, sint_word_neg h, Int.natAbs_neg, mag]

theorem sgn_word_neg {w : Word} (h : w ≠ minPat) (h0 : w ≠ zeroWord) : sgn (word (-sint w)) = !sgn w := by
  have hne : sint w ≠ 0 := fun hw => h0 (eq_word_of_sint hw)
  rw [Bool.eq_iff_iff, sgn_iff, sint_word_neg h, Bool.not_eq_true', sgn_false_iff]
  omega

theorem mag_eq_zero_iff {w : Word} : mag w = 0 ↔ w = zeroWord :=
  not_iff_not.mp (Nat.pos_iff_ne_zero.symm.trans (mag_pos_iff w))

/-- Only a zero operand makes the product of the magnitudes 0. -/
theorem mag_mul_mag_eq_zero_iff {a b : Word} : mag a * mag b = 0 ↔ a = zeroWord ∨ b = zeroWord := by
  rw [Nat.mul_eq_zero, mag_eq_zero_iff, mag_eq_zero_iff]

/-- The exact product of two words, as a sign and the product of the magnitudes (R82). -/
theorem sint_mul_sint (a b : Word) :
    sint a * sint b = if sgn a ^^ sgn b then -((mag a * mag b : Nat) : Int) else ((mag a * mag b : Nat) : Int) := by
  rw [sint_eq_sign_mag a, sint_eq_sign_mag b]
  cases sgn a <;> cases sgn b <;> simp

/-! ## Real values -/

theorem abs_val (r : Radix) (w : Word) : |val r w| = (mag w : ℚ) / 2 ^ r.bits := by
  rw [val, abs_div, abs_of_pos (show (0 : ℚ) < 2 ^ r.bits by positivity), mag, Nat.cast_natAbs, Int.cast_abs]

theorem abs_val_mul (r : Radix) (a b : Word) :
    |val r a * val r b| = ((mag a * mag b : Nat) : ℚ) / 2 ^ r.bits / 2 ^ r.bits := by
  rw [abs_mul, abs_val, abs_val, Nat.cast_mul, div_mul_div_comm, div_div]

/-- Dropping the low bits of a product loses less than one unit (R82, R88). -/
theorem truncation_error (p f : Nat) :
    ((p / 2 ^ f : Nat) : ℚ) / 2 ^ f ≤ (p : ℚ) / 2 ^ f / 2 ^ f ∧
      (p : ℚ) / 2 ^ f / 2 ^ f < ((p / 2 ^ f : Nat) : ℚ) / 2 ^ f + 1 / 2 ^ f := by
  have hfloor : p / 2 ^ f = ⌊(p : ℚ) / 2 ^ f⌋₊ := by exact_mod_cast (Nat.floor_div_eq_div (K := ℚ) p (2 ^ f)).symm
  rw [← add_div, hfloor]
  exact ⟨by gcongr; exact Nat.floor_le (by positivity), by gcongr; exact Nat.lt_floor_add_one _⟩

/-- A word whose magnitude is the truncated product is short of the exact product by less than one unit (R82, R88). -/
theorem abs_val_truncated_product {r : Radix} {a b v : Word} (h : mag v = mag a * mag b / 2 ^ r.bits) :
    |val r v| ≤ |val r a * val r b| ∧ |val r a * val r b| < |val r v| + 1 / 2 ^ r.bits := by
  rw [abs_val_mul, abs_val, h]
  exact truncation_error _ _

/-- A word with the sign of the exact product has a value with the sign of the exact product (R82). -/
theorem val_mul_product_nonneg {r : Radix} {a b v : Word} {m : Nat}
    (h : sint v = if sgn a ^^ sgn b then -(m : Int) else (m : Int)) : 0 ≤ val r v * (val r a * val r b) := by
  have hint : 0 ≤ sint v * (sint a * sint b) := by
    rw [h, sint_mul_sint]
    split
    · rw [neg_mul_neg]
      positivity
    · positivity
  have hreal : val r v * (val r a * val r b) =
      ((sint v * (sint a * sint b) : Int) : ℚ) / (2 ^ r.bits * (2 ^ r.bits * 2 ^ r.bits)) := by
    push_cast [val]
    rw [div_mul_div_comm, div_mul_div_comm]
  rw [hreal]
  exact div_nonneg (by exact_mod_cast hint) (by positivity)

/-! ## The rule of MUL -/

/-- The answer of MUL as a rule of the sign `s` and the exact product `p` of the magnitudes: `M = p >> F` capped at MAXMAG,
with OVF where the cap cuts and UNF where a product that is not 0 loses all its bits (R82, R83). -/
def signedProduct (r : Radix) (s : Bool) (p : Nat) : OpResult :=
  { value := sword s (min (p / 2 ^ r.bits) maxMag)
    flags := if maxMag < p / 2 ^ r.bits then flagOVF else if p / 2 ^ r.bits = 0 ∧ 0 < p then flagUNF else 0#5 }

/-- Zero bypass (R84). -/
theorem signedProduct_zero (r : Radix) (s : Bool) : signedProduct r s 0 = { value := zeroWord, flags := 0#5 } := by
  simp [signedProduct, maxMag]

theorem signedProduct_of_overflow {r : Radix} {p : Nat} (s : Bool) (h : maxMag < p / 2 ^ r.bits) :
    signedProduct r s p = { value := sat s, flags := flagOVF } := by
  rw [signedProduct, min_eq_right h.le, if_pos h, sat]

theorem signedProduct_of_underflow {r : Radix} {p : Nat} (s : Bool) (h : p / 2 ^ r.bits = 0) (hp : 0 < p) :
    signedProduct r s p = { value := zeroWord, flags := flagUNF } := by
  simp [signedProduct, h, hp, maxMag]

theorem signedProduct_of_fits {r : Radix} {p : Nat} (s : Bool) (h0 : 0 < p / 2 ^ r.bits) (h : p / 2 ^ r.bits ≤ maxMag) :
    signedProduct r s p = { value := sword s (p / 2 ^ r.bits), flags := 0#5 } := by
  rw [signedProduct, min_eq_left h, if_neg h.not_gt, if_neg fun hunf => h0.ne' hunf.1]

/-- MUL reads its operands through the sign and the magnitude of their product alone (R82). -/
theorem mulResult_eq_signedProduct (r : Radix) (a b : Word) :
    mulResult r a b = signedProduct r (sgn a ^^ sgn b) (mag a * mag b) := by
  unfold mulResult
  dsimp only
  split
  next hzero => rw [mag_mul_mag_eq_zero_iff.mpr hzero, signedProduct_zero]
  next hzero =>
    split
    next hovf => rw [signedProduct_of_overflow _ hovf]
    next hfits =>
      split
      next hunf => rw [signedProduct_of_underflow _ hunf (Nat.pos_of_ne_zero (mt mag_mul_mag_eq_zero_iff.mp hzero))]
      next hunf => rw [signedProduct_of_fits _ (Nat.pos_of_ne_zero hunf) (not_lt.mp hfits)]

/-- The other sign negates the result and keeps the flags (R88). -/
theorem signedProduct_not (r : Radix) (s : Bool) (p : Nat) :
    signedProduct r (!s) p = { signedProduct r s p with value := word (-sint (signedProduct r s p).value) } := by
  rw [signedProduct, sword_not (min_le_right _ _)]
  rfl

/-- The magnitude of the result is that of the truncated product, capped at MAXMAG (R82, R83). -/
theorem mag_mulResult (r : Radix) (a b : Word) :
    mag (mulResult r a b).value = min (mag a * mag b / 2 ^ r.bits) maxMag := by
  rw [mulResult_eq_signedProduct]
  exact mag_sword (min_le_right _ _)

/-- OVF is raised exactly when the truncated product does not fit (R83). -/
theorem mulResult_flags_eq_flagOVF_iff {r : Radix} {a b : Word} :
    (mulResult r a b).flags = flagOVF ↔ maxMag < mag a * mag b / 2 ^ r.bits := by
  rw [mulResult_eq_signedProduct]
  constructor
  · intro h
    by_contra hfits
    rw [signedProduct, if_neg hfits] at h
    split at h <;> cases h
  · intro h
    rw [signedProduct_of_overflow _ h]

/-- A MUL whose rule answers `v` and `f` gives that answer when `f` is not selected (R17, R82). -/
theorem exec_mul_answersWith {a b v : Word} {f : FlagSet} {s : State} (hf : s.fault = false)
    (h : mulResult s.build.radix a b = { value := v, flags := f }) (hs : selects s.build.assertMask f = false) :
    exec (.mul a b) s = .next (answersWith s v f) := by
  have hop : operation s.build s.status (.mul a b) = { value := v, flags := f } := h
  have hexec := exec_answersWith (i := .mul a b) hf (fun _ => Instr.noConfusion) (by rwa [hop])
  rwa [hop] at hexec

/-! ## The half-word decomposition -/

theorem highHalf_le {u : Nat} (h : u ≤ 2 ^ 31) : highHalf u ≤ 2 ^ 15 := by
  unfold highHalf
  omega

theorem lowHalf_le (u : Nat) : lowHalf u ≤ 2 ^ 16 - 1 := by
  unfold lowHalf
  omega

theorem highHalf_lowHalf (u : Nat) : highHalf u * 2 ^ 16 + lowHalf u = u := by
  unfold highHalf lowHalf
  omega

theorem lowProduct_le (ua ub : Nat) : lowProduct ua ub ≤ (2 ^ 16 - 1) ^ 2 := by
  rw [sq]
  exact Nat.mul_le_mul (lowHalf_le ua) (lowHalf_le ub)

theorem middleProduct_lt {ua ub : Nat} (ha : ua ≤ 2 ^ 31) (hb : ub ≤ 2 ^ 31) : middleProduct ua ub < 2 ^ 33 := by
  have hleft := Nat.mul_le_mul (lowHalf_le ua) (highHalf_le hb)
  have hright := Nat.mul_le_mul (highHalf_le ha) (lowHalf_le ub)
  unfold middleProduct
  omega

theorem highProduct_le {ua ub : Nat} (ha : ua ≤ 2 ^ 31) (hb : ub ≤ 2 ^ 31) : highProduct ua ub ≤ 2 ^ 30 := by
  calc highHalf ua * highHalf ub ≤ 2 ^ 15 * 2 ^ 15 := Nat.mul_le_mul (highHalf_le ha) (highHalf_le hb)
    _ = 2 ^ 30 := by norm_num

/-- `P = ua * ub`, from `ua = ah*2^16 + al` and `ub = bh*2^16 + bl` (R81). -/
theorem halfWordProduct_eq (ua ub : Nat) : halfWordProduct ua ub = ua * ub := by
  calc halfWordProduct ua ub
      = (highHalf ua * 2 ^ 16 + lowHalf ua) * (highHalf ub * 2 ^ 16 + lowHalf ub) := by
        unfold halfWordProduct highProduct middleProduct lowProduct
        ring
    _ = ua * ub := by rw [highHalf_lowHalf, highHalf_lowHalf]

/-- The high and the middle term are multiples of `2^F`, so only the shift of the low one drops bits (R81). -/
theorem shiftedPartials_eq {f : Nat} (hf : f ≤ 16) (ua ub : Nat) :
    shiftedPartials f ua ub = halfWordProduct ua ub / 2 ^ f := by
  have hpow : 0 < 2 ^ f := by positivity
  have h16 : 2 ^ 16 = 2 ^ (16 - f) * 2 ^ f := by rw [← pow_add, Nat.sub_add_cancel hf]
  have h32 : 2 ^ 32 = 2 ^ (32 - f) * 2 ^ f := by rw [← pow_add, Nat.sub_add_cancel (by omega)]
  unfold shiftedPartials halfWordProduct
  rw [h16, h32, ← mul_assoc, ← mul_assoc, Nat.mul_div_cancel _ hpow, ← add_mul, add_comm (_ * 2 ^ f),
    Nat.add_mul_div_right _ _ hpow, add_comm]

/-- The high partial product alone is a lower bound of the truncated product (R85). -/
theorem highProduct_shifted_le {f : Nat} (hf : f ≤ 16) (ua ub : Nat) :
    highProduct ua ub * 2 ^ (32 - f) ≤ ua * ub / 2 ^ f := by
  rw [← halfWordProduct_eq ua ub, ← shiftedPartials_eq hf, shiftedPartials, add_assoc]
  exact Nat.le_add_right _ _

/-- A number has more than `n` binary digits from `2^n` up (R14). -/
theorem lt_bitlen_iff {n u : Nat} : n < bitlen u ↔ 2 ^ n ≤ u := by
  unfold bitlen
  split
  next h => simp [h]
  next h => rw [Nat.lt_succ_iff, Nat.le_log2 h]

/-- At either radix `F` bits of the high partial product are enough: `M >= 2^(F-1) << (32-F) = 2^31` (R85). -/
theorem overflow_of_bitlen_highProduct {r : Radix} {ua ub : Nat} (h : r.bits ≤ bitlen (highProduct ua ub)) :
    maxMag < ua * ub / 2 ^ r.bits := by
  have hhigh : 2 ^ (r.bits - 1) ≤ highProduct ua ub := by
    rw [← lt_bitlen_iff]
    have hpos := bits_pos r
    omega
  calc maxMag < 2 ^ (r.bits - 1) * 2 ^ (32 - r.bits) := by cases r <;> decide
    _ ≤ highProduct ua ub * 2 ^ (32 - r.bits) := Nat.mul_le_mul_right _ hhigh
    _ ≤ ua * ub / 2 ^ r.bits := highProduct_shifted_le (bits_le r) ua ub

/-! ## The laws of R88 -/

theorem mulResult_comm (r : Radix) (a b : Word) : mulResult r a b = mulResult r b a := by
  rw [mulResult_eq_signedProduct, mulResult_eq_signedProduct, Bool.xor_comm, Nat.mul_comm]

/-- Negating an operand flips the sign and keeps the magnitude; at zero the bypass has no sign (R88). -/
theorem mulResult_word_neg {a : Word} (h : a ≠ minPat) (r : Radix) (b : Word) :
    mulResult r (word (-sint a)) b = { mulResult r a b with value := word (-sint (mulResult r a b).value) } := by
  rw [mulResult_eq_signedProduct r a, ← signedProduct_not, mulResult_eq_signedProduct, mag_word_neg h]
  by_cases h0 : a = zeroWord
  · simp [h0, signedProduct_zero]
  · rw [sgn_word_neg h h0, Bool.not_xor]

/-- ONE is an identity: the shift by `F` undoes the product with `2^F` (R88). -/
theorem mulResult_oneWord {a : Word} (h : a ≠ minPat) (r : Radix) :
    mulResult r a (oneWord r) = { value := a, flags := 0#5 } := by
  have hdiv : mag a * 2 ^ r.bits / 2 ^ r.bits = mag a := Nat.mul_div_cancel _ (by positivity)
  rw [mulResult_eq_signedProduct, mag_oneWord, sgn_oneWord, Bool.xor_false]
  by_cases h0 : a = zeroWord
  · simp [h0, signedProduct_zero]
  · rw [signedProduct_of_fits _ (hdiv.symm ▸ (mag_pos_iff a).mpr h0) (hdiv.symm ▸ mag_le_maxMag h), hdiv, sword_sgn_mag]

theorem mag_mulResult_mono {r : Radix} {a a' : Word} (h : mag a ≤ mag a') (b : Word) :
    mag (mulResult r a b).value ≤ mag (mulResult r a' b).value := by
  rw [mag_mulResult, mag_mulResult]
  gcongr

/-- Without OVF the magnitude of the result is the truncated product, not cut (R82). -/
theorem mag_mulResult_of_flags {r : Radix} {a b : Word} (h : (mulResult r a b).flags ≠ flagOVF) :
    mag (mulResult r a b).value = mag a * mag b / 2 ^ r.bits := by
  rw [mag_mulResult, min_eq_left (not_lt.mp (mt mulResult_flags_eq_flagOVF_iff.mpr h))]

/-! ## The obligations -/

/-- Settles O15: the four outcomes are those of `signedProduct`, and the last one truncates the exact product. -/
theorem mulAnswersProductRoundedTowardZero : Obligations.MulAnswersProductRoundedTowardZero := by
  intro a b s hf f m neg
  have hrule : mulResult s.build.radix a b = signedProduct s.build.radix neg (mag a * mag b) :=
    mulResult_eq_signedProduct _ a b
  refine ⟨fun hzero => ?_, fun _ _ hm hs => ?_, fun ha hb hm hs => ?_, fun _ _ hpos hm => ?_⟩
  · rw [mag_mul_mag_eq_zero_iff.mpr hzero, signedProduct_zero] at hrule
    exact exec_mul_answersWith hf hrule (selects_no_flag _)
  · rw [signedProduct_of_overflow neg hm] at hrule
    have hsat : sat neg = if neg then 0x80000001#32 else 0x7FFFFFFF#32 := by cases neg <;> rfl
    rw [← hsat]
    exact exec_mul_answersWith hf hrule hs
  · have hpos : 0 < mag a * mag b := Nat.pos_of_ne_zero (mt mag_mul_mag_eq_zero_iff.mp (not_or.mpr ⟨ha, hb⟩))
    rw [signedProduct_of_underflow neg hm hpos] at hrule
    exact exec_mul_answersWith hf hrule hs
  · rw [signedProduct_of_fits neg hpos hm] at hrule
    have hsint : sint (sword neg m) = if neg then -(m : Int) else (m : Int) := sint_sword hm
    obtain ⟨hbelow, habove⟩ := abs_val_truncated_product (r := s.build.radix) (mag_sword (s := neg) hm)
    exact ⟨sword neg m, exec_mul_answersWith hf hrule (selects_no_flag _), hsint, hbelow, habove,
      val_mul_product_nonneg hsint⟩

/-- Settles O16. -/
theorem halfWordMultiplyIsExact : Obligations.HalfWordMultiplyIsExact := fun r a b =>
  ⟨mag_le a, mag_le b, lowProduct_le _ _, middleProduct_lt (mag_le a) (mag_le b), highProduct_le (mag_le a) (mag_le b),
    halfWordProduct_eq _ _, shiftedPartials_eq (bits_le r) _ _⟩

/-- Settles O17: `F` bits of the high partial product are enough, and `F <= 32 - F`. The examples of the rule compute. -/
theorem highPartialProductConditionImpliesOverflow : Obligations.HighPartialProductConditionImpliesOverflow := by
  refine ⟨fun r a b h => ?_, fun a b h => ?_, ⟨rfl, rfl⟩, ⟨rfl, rfl⟩, ⟨rfl, rfl⟩⟩
  · have hbits := bits_le r
    have hovf : maxMag < mag a * mag b / 2 ^ r.bits := overflow_of_bitlen_highProduct (by omega)
    exact ⟨hovf, mulResult_flags_eq_flagOVF_iff.mpr hovf⟩
  · exact mulResult_flags_eq_flagOVF_iff.mpr (overflow_of_bitlen_highProduct h)

/-- Settles O18. -/
theorem mulIsCommutativeOddAndUnital : Obligations.MulIsCommutativeOddAndUnital := fun r a b =>
  ⟨mulResult_comm r a b, fun h => mulResult_word_neg h r b, fun h => mulResult_oneWord h r⟩

/-- Settles O19: a result without a flag is the truncated product. -/
theorem mulIsMonotoneWithBoundedError : Obligations.MulIsMonotoneWithBoundedError := by
  intro r a a' b
  refine ⟨fun h => mag_mulResult_mono h b, fun h => ?_⟩
  have hmag := mag_mulResult_of_flags (r := r) (a := a) (b := b) (by rw [h]; decide)
  obtain ⟨hbelow, habove⟩ := abs_val_truncated_product hmag
  exact ⟨sub_nonneg.mpr hbelow, sub_lt_iff_lt_add'.mpr habove⟩

end Sys2Proof.Machine

end

-- RECIP (spec/42_reciprocal.md): its four outcomes as equations, the flags by the magnitude of the operand, the restoring
-- division of R99, and the obligations on R92, R93, R97 and R99.
section

namespace Sys2Proof.Machine

/-! ## The rule of RECIP -/

/-- The sentinel of zero (R94). -/
theorem recipResult_zeroWord (r : Radix) : recipResult r zeroWord = { value := maxMagWord, flags := flagDZ } := rfl

theorem recipResult_of_overflow {r : Radix} {x : Word} (h0 : x ≠ zeroWord) (h : maxMag < 2 ^ (2 * r.bits) / mag x) :
    recipResult r x = { value := sat (sgn x), flags := flagOVF } := by
  simp only [recipResult, if_neg h0, if_pos h]

theorem recipResult_of_underflow {r : Radix} {x : Word} (h0 : x ≠ zeroWord) (h : 2 ^ (2 * r.bits) / mag x = 0) :
    recipResult r x = { value := zeroWord, flags := flagUNF } := by
  simp only [recipResult, if_neg h0, h, Nat.not_lt_zero, if_false, if_true]

theorem recipResult_of_fits {r : Radix} {x : Word} (h0 : x ≠ zeroWord) (hpos : 0 < 2 ^ (2 * r.bits) / mag x)
    (h : 2 ^ (2 * r.bits) / mag x ≤ maxMag) :
    recipResult r x = { value := sword (sgn x) (2 ^ (2 * r.bits) / mag x), flags := 0#5 } := by
  simp only [recipResult, if_neg h0, if_neg h.not_gt, if_neg hpos.ne']

/-- A request whose rule answers `v` and `f` and clears nothing gives that answer when `f` is not selected (R17). -/
theorem exec_of_operation_eq {i : Instr} {v : Word} {f : FlagSet} {s : State} (hf : s.fault = false)
    (h : operation s.build s.status i = { value := v, flags := f }) (hs : selects s.build.assertMask f = false) :
    exec i s = .next (answersWith s v f) := by
  rw [exec_eq_commit, h, commit_answered hf hs, answer, accumulate_clear_nothing]
  rfl

/-! ## The flags -/

theorem recipResult_flags (r : Radix) (x : Word) :
    (recipResult r x).flags = if x = zeroWord then flagDZ else if maxMag < 2 ^ (2 * r.bits) / mag x then flagOVF else
      if 2 ^ (2 * r.bits) / mag x = 0 then flagUNF else 0#5 := by
  simp only [recipResult, apply_ite OpResult.flags]

/-- DZ is raised exactly for zero (R93). -/
theorem recipResult_flags_eq_flagDZ_iff {r : Radix} {x : Word} : (recipResult r x).flags = flagDZ ↔ x = zeroWord := by
  rw [recipResult_flags]
  split_ifs <;> simp_all [flagDZ, flagOVF, flagUNF]

/-- OVF is raised exactly when the quotient does not fit (R93). -/
theorem recipResult_flags_eq_flagOVF_iff {r : Radix} {x : Word} :
    (recipResult r x).flags = flagOVF ↔ x ≠ zeroWord ∧ maxMag < 2 ^ (2 * r.bits) / mag x := by
  rw [recipResult_flags]
  generalize 2 ^ (2 * r.bits) / mag x = q
  split_ifs <;> simp_all [flagDZ, flagOVF, flagUNF]

/-- UNF is raised exactly when the quotient of an operand other than zero is 0 (R93). -/
theorem recipResult_flags_eq_flagUNF_iff {r : Radix} {x : Word} :
    (recipResult r x).flags = flagUNF ↔ x ≠ zeroWord ∧ 2 ^ (2 * r.bits) / mag x = 0 := by
  rw [recipResult_flags]
  generalize 2 ^ (2 * r.bits) / mag x = q
  split_ifs <;> simp_all [flagDZ, flagOVF, flagUNF]
  omega

/-- No flag is raised exactly when the quotient of an operand other than zero fits and is not 0 (R93). -/
theorem recipResult_flags_eq_zero_iff {r : Radix} {x : Word} :
    (recipResult r x).flags = 0#5 ↔
      x ≠ zeroWord ∧ 0 < 2 ^ (2 * r.bits) / mag x ∧ 2 ^ (2 * r.bits) / mag x ≤ maxMag := by
  rw [recipResult_flags]
  generalize 2 ^ (2 * r.bits) / mag x = q
  split_ifs <;> simp_all [flagDZ, flagOVF, flagUNF, Nat.pos_iff_ne_zero]

/-- Every operand has one of the four outcomes of R92. -/
theorem recipResult_flags_cases (r : Radix) (x : Word) :
    (recipResult r x).flags = 0#5 ∨ (recipResult r x).flags = flagDZ ∨ (recipResult r x).flags = flagOVF ∨
      (recipResult r x).flags = flagUNF := by
  rw [recipResult_flags]
  split_ifs <;> simp

/-! ## The operands of each flag -/

/-- `2^32 div u >= 2^31` for `u` 1 and 2 alone, and `2^24 div u` always fits (R93). -/
theorem maxMag_lt_quotient_iff {r : Radix} {u : Nat} :
    maxMag < 2 ^ (2 * r.bits) / u ↔ r = .r16 ∧ (u = 1 ∨ u = 2) := by
  rcases Nat.eq_zero_or_pos u with rfl | hu
  · simp
  rw [← Nat.succ_le_iff, Nat.le_div_iff_mul_le hu]
  cases r <;> simp [Radix.bits, maxMag] <;> omega

/-- A magnitude is at most `2^31`, which only the dividend `2^24` of radix 12 can be below (R93). -/
theorem quotient_eq_zero_iff {r : Radix} {x : Word} (h0 : x ≠ zeroWord) :
    2 ^ (2 * r.bits) / mag x = 0 ↔ r = .r12 ∧ 2 ^ 24 < mag x := by
  have hle := mag_le x
  rw [Nat.div_eq_zero_iff_lt ((mag_pos_iff x).mpr h0)]
  cases r <;> simp [Radix.bits]
  omega

/-- A magnitude read off the bits of the word: the word itself below MINPAT, its two's complement from there on (R14). -/
theorem mag_eq_toNat (x : Word) : mag x = if x.toNat < 2 ^ 31 then x.toNat else 2 ^ 32 - x.toNat := by
  have hlt := x.isLt
  rw [mag, sint, BitVec.toInt_eq_toNat_cond]
  split_ifs <;> omega

/-- The four words of magnitude 1 or 2 (R93). -/
theorem mag_eq_one_or_two_iff {x : Word} :
    (mag x = 1 ∨ mag x = 2) ↔ x = 0x00000001#32 ∨ x = 0x00000002#32 ∨ x = 0xFFFFFFFF#32 ∨ x = 0xFFFFFFFE#32 := by
  rw [mag_eq_toNat]
  split_ifs <;> bv_omega

/-- The two ranges of words of magnitude above `2^24` (R93). -/
theorem lt_mag_iff_ranges {x : Word} :
    2 ^ 24 < mag x ↔
      (0x01000001#32 ≤ x ∧ x ≤ 0x7FFFFFFF#32) ∨ (0x80000000#32 ≤ x ∧ x ≤ 0xFEFFFFFF#32) := by
  rw [mag_eq_toNat]
  split_ifs <;> bv_omega

/-! ## The real reciprocal -/

/-- The real reciprocal in units of `2^-F` is `2^(2F) / ux` (R92). -/
theorem abs_one_div_val (r : Radix) (x : Word) :
    |1 / val r x| = ((2 ^ (2 * r.bits) : Nat) : ℚ) / (mag x : ℚ) / 2 ^ r.bits := by
  rw [abs_div, abs_one, abs_val, one_div_div, two_mul, pow_add]
  push_cast
  field_simp

/-- A word whose magnitude is the truncated quotient is short of the exact reciprocal by less than one unit (R92, R97). -/
theorem abs_val_truncated_reciprocal {r : Radix} {x v : Word} (h : mag v = 2 ^ (2 * r.bits) / mag x) :
    |val r v| ≤ |1 / val r x| ∧ |1 / val r x| < |val r v| + 1 / 2 ^ r.bits := by
  rw [abs_one_div_val, abs_val, h, ← add_div, ← Nat.floor_div_eq_div (K := ℚ)]
  exact ⟨by gcongr; exact Nat.floor_le (by positivity), by gcongr; exact Nat.lt_floor_add_one _⟩

/-! ## The laws of R97 -/

/-- Negating an operand flips the sign and keeps the quotient (R97). -/
theorem recipResult_word_neg {x : Word} (h : x ≠ minPat) (h0 : x ≠ zeroWord) (r : Radix) :
    recipResult r (word (-sint x)) = { recipResult r x with value := word (-sint (recipResult r x).value) } := by
  have h0' : word (-sint x) ≠ zeroWord := by rwa [← mag_pos_iff, mag_word_neg h, mag_pos_iff]
  have hmag := mag_word_neg h
  have hsgn := sgn_word_neg h h0
  by_cases hovf : maxMag < 2 ^ (2 * r.bits) / mag x
  · rw [recipResult_of_overflow h0 hovf, recipResult_of_overflow h0' (by rwa [hmag]), hsgn, sat, sword_not le_rfl, sat]
  by_cases hunf : 2 ^ (2 * r.bits) / mag x = 0
  · rw [recipResult_of_underflow h0 hunf, recipResult_of_underflow h0' (by rwa [hmag])]
    rfl
  · have hpos := Nat.pos_of_ne_zero hunf
    have hfits := not_lt.mp hovf
    rw [recipResult_of_fits h0 hpos hfits, recipResult_of_fits h0' (by rwa [hmag]) (by rwa [hmag]), hmag, hsgn,
      sword_not hfits]

/-- A sign applied to a magnitude other than 0 is not zero. -/
theorem sword_eq_zeroWord_iff {s : Bool} {m : Nat} (h : m ≤ maxMag) : sword s m = zeroWord ↔ m = 0 := by
  rw [← mag_eq_zero_iff, mag_sword h]

/-- The sentinel of zero and SAT have magnitude MAXMAG, and a quotient without a flag is not 0 (R97). -/
theorem recipResult_flags_of_value_eq_zeroWord {r : Radix} {x : Word} (h : (recipResult r x).value = zeroWord) :
    (recipResult r x).flags = flagUNF := by
  rcases recipResult_flags_cases r x with hflags | hflags | hflags | hflags
  · obtain ⟨h0, hpos, hfits⟩ := recipResult_flags_eq_zero_iff.mp hflags
    rw [recipResult_of_fits h0 hpos hfits, sword_eq_zeroWord_iff hfits] at h
    exact absurd h hpos.ne'
  · rw [recipResult_flags_eq_flagDZ_iff.mp hflags] at h
    exact absurd h (show maxMagWord ≠ zeroWord by decide)
  · obtain ⟨h0, hovf⟩ := recipResult_flags_eq_flagOVF_iff.mp hflags
    rw [recipResult_of_overflow h0 hovf, sat, sword_eq_zeroWord_iff le_rfl] at h
    exact absurd h (by decide)
  · exact hflags

/-- The reciprocal of a positive operand is the quotient itself when no flag is raised (R92). -/
theorem sint_recipResult_of_pos {r : Radix} {x : Word} (hx : 0 < sint x) (h : (recipResult r x).flags = 0#5) :
    sint (recipResult r x).value = ((2 ^ (2 * r.bits) / mag x : Nat) : Int) := by
  obtain ⟨h0, hpos, hfits⟩ := recipResult_flags_eq_zero_iff.mp h
  rw [recipResult_of_fits h0 hpos hfits, sint_sword hfits, (sgn_false_iff x).mpr hx.le]
  rfl

/-- The product of two operands from 0 up is the truncated product when that fits (R82). -/
theorem sint_mulResult_of_nonneg {r : Radix} {a b : Word} (ha : 0 ≤ sint a) (hb : 0 ≤ sint b)
    (h : mag a * mag b / 2 ^ r.bits ≤ maxMag) :
    sint (mulResult r a b).value = ((mag a * mag b / 2 ^ r.bits : Nat) : Int) := by
  rw [mulResult_eq_signedProduct, signedProduct, min_eq_left h, sint_sword h, (sgn_false_iff a).mpr ha,
    (sgn_false_iff b).mpr hb]
  rfl

/-- Dividing the product by `k` loses at most one unit for each started multiple of `k` in `u` (R97). -/
theorem le_div_add_ceil {k u p : Nat} (hk : 0 < k) (h : k * k < p + u) : k ≤ p / k + (u + k - 1) / k := by
  have hceil : u ≤ (u + k - 1) / k * k := by
    have hlt := Nat.lt_mul_div_succ (u + k - 1) hk
    rw [mul_comm]
    rw [mul_add_one] at hlt
    omega
  calc k = k * k / k := (Nat.mul_div_cancel k hk).symm
    _ ≤ (p + (u + k - 1) / k * k) / k := Nat.div_le_div_right (by omega)
    _ = p / k + (u + k - 1) / k := Nat.add_mul_div_right p _ hk

/-- The product with the quotient lies in `2^(2F) - ux + 1 .. 2^(2F)` (R97). -/
theorem mag_mul_recip_bounds {r : Radix} {x : Word} (hx : 0 < sint x) (h : (recipResult r x).flags = 0#5) :
    2 ^ r.bits * 2 ^ r.bits < mag x * mag (recipResult r x).value + mag x ∧
      mag x * mag (recipResult r x).value ≤ 2 ^ r.bits * 2 ^ r.bits := by
  have hu : 0 < mag x := (mag_pos_iff x).mpr (recipResult_flags_eq_zero_iff.mp h).1
  have hmag : mag (recipResult r x).value = 2 ^ (2 * r.bits) / mag x := by
    rw [mag, sint_recipResult_of_pos hx h, Int.natAbs_natCast]
  rw [← pow_add, ← two_mul, hmag, ← mul_add_one]
  exact ⟨Nat.lt_mul_div_succ _ hu, Nat.mul_div_le _ _⟩

/-! ## The restoring division -/

/-- One iteration keeps quotient and remainder of the digits brought down so far (R99). -/
theorem divideDigit_div_mod {d : Nat} (hd : 0 < d) (digit : Bool) (n : Nat) :
    divideDigit d digit (n / d, n % d) = ((2 * n + digit.toNat) / d, (2 * n + digit.toNat) % d) := by
  have hmod := Nat.mod_lt n hd
  have hdigit := Bool.toNat_le digit
  have hdiv := Nat.mod_add_div n d
  unfold divideDigit
  dsimp only
  split
  next hle =>
    obtain ⟨hquo, hrem⟩ : (2 * n + digit.toNat) / d = 2 * (n / d) + 1 ∧
        (2 * n + digit.toNat) % d = 2 * (n % d) + digit.toNat - d :=
      (Nat.div_mod_unique hd).mpr ⟨by rw [mul_add, mul_left_comm]; omega, by omega⟩
    rw [hquo, hrem]
  next hlt =>
    obtain ⟨hquo, hrem⟩ : (2 * n + digit.toNat) / d = 2 * (n / d) ∧
        (2 * n + digit.toNat) % d = 2 * (n % d) + digit.toNat :=
      (Nat.div_mod_unique hd).mpr ⟨by rw [mul_left_comm]; omega, by omega⟩
    rw [hquo, hrem]

/-- Bringing down the next digit of a number. -/
theorem div_two_pow_eq_digit (m n : Nat) : m / 2 ^ n = 2 * (m / 2 ^ (n + 1)) + (m.testBit n).toNat := by
  rw [Nat.toNat_testBit, pow_succ, ← Nat.div_div_eq_div_mul, Nat.div_add_mod]

/-- From quotient and remainder of the digits above the lowest `n`, the loop ends with those of the dividend (R99). -/
theorem restoringDivide_div_mod {d : Nat} (hd : 0 < d) (dividend n : Nat) :
    restoringDivide dividend d n (dividend / 2 ^ n / d, dividend / 2 ^ n % d) = (dividend / d, dividend % d) := by
  induction n with
  | zero => simp [restoringDivide]
  | succ n ih => rw [restoringDivide, divideDigit_div_mod hd, ← div_two_pow_eq_digit, ih]

theorem restoringDivide_eq_div_mod {n dividend d : Nat} (hd : 0 < d) (h : dividend < 2 ^ n) :
    restoringDivide dividend d n (0, 0) = (dividend / d, dividend % d) := by
  simpa [Nat.div_eq_of_lt h] using restoringDivide_div_mod hd dividend n

/-! ## The obligations -/

/-- Settles O21: the four outcomes are those of the rule, and the last one truncates the real reciprocal. -/
theorem recipAnswersReciprocalRoundedTowardZero : Obligations.RecipAnswersReciprocalRoundedTowardZero := by
  intro x s hf f q
  refine ⟨?_, fun h0 hq hs => ?_, fun h0 hq hs => ?_, fun h0 hpos hq => ?_, fun h0 => ?_⟩
  · rintro rfl hs
    exact exec_of_operation_eq hf (recipResult_zeroWord s.build.radix) hs
  · have hsat : sat (sgn x) = if sgn x then 0x80000001#32 else 0x7FFFFFFF#32 := by cases sgn x <;> rfl
    rw [← hsat]
    exact exec_of_operation_eq hf (recipResult_of_overflow h0 hq) hs
  · exact exec_of_operation_eq hf (recipResult_of_underflow h0 hq) hs
  · obtain ⟨hbelow, habove⟩ := abs_val_truncated_reciprocal (mag_sword (s := sgn x) hq)
    exact ⟨sword (sgn x) q, exec_of_operation_eq hf (recipResult_of_fits h0 hpos hq) (selects_no_flag _), sint_sword hq,
      hbelow, habove⟩
  · exact ⟨maxMag_lt_quotient_iff, quotient_eq_zero_iff h0⟩

/-- Settles O22: the conditions on the quotient are conditions on the magnitude, and those are ranges of words. -/
theorem recipRaisesEachFlagExactly : Obligations.RecipRaisesEachFlagExactly := by
  intro r x
  refine ⟨recipResult_flags_eq_flagDZ_iff, ?_, ?_, recipResult_flags_cases r x⟩
  · have hne : r = .r16 ∧ (mag x = 1 ∨ mag x = 2) → x ≠ zeroWord := fun h => (mag_pos_iff x).mp (by omega)
    rw [recipResult_flags_eq_flagOVF_iff, maxMag_lt_quotient_iff, and_iff_right_of_imp hne, mag_eq_one_or_two_iff]
  · have hne : r = .r12 ∧ 2 ^ 24 < mag x → x ≠ zeroWord := fun h => (mag_pos_iff x).mp (by omega)
    rw [recipResult_flags_eq_flagUNF_iff, and_congr_right quotient_eq_zero_iff, and_iff_right_of_imp hne,
      lt_mag_iff_ranges]

/-- Settles O23: the product with the quotient is the dividend less the remainder, and MUL truncates it. -/
theorem recipLawsWithMul : Obligations.RecipLawsWithMul := by
  intro r x
  refine ⟨fun h h0 => recipResult_word_neg h h0 r, recipResult_flags_of_value_eq_zeroWord, fun hx h => ?_⟩
  have hv : 0 ≤ sint (recipResult r x).value := sint_recipResult_of_pos hx h ▸ Int.natCast_nonneg _
  obtain ⟨hlow, hhigh⟩ := mag_mul_recip_bounds hx h
  have hceil := le_div_add_ceil (Nat.two_pow_pos r.bits) hlow
  have hone : mag x * mag (recipResult r x).value / 2 ^ r.bits ≤ 2 ^ r.bits := Nat.div_le_of_le_mul hhigh
  have hfits : 2 ^ r.bits ≤ maxMag := by cases r <;> decide
  rw [sint_mulResult_of_nonneg hx.le hv (hone.trans hfits), ← mag_of_nonneg hv, two_mul, pow_add]
  refine ⟨?_, by exact_mod_cast hhigh, ?_, by exact_mod_cast hone⟩
  · zify at hlow
    linarith
  · rw [sub_le_iff_le_add]
    exact_mod_cast hceil

/-- Settles O24: the dividend of RECIP has `2F + 1` digits. -/
theorem restoringDivisionComputesTheQuotient : Obligations.RestoringDivisionComputesTheQuotient := by
  refine ⟨fun n dividend d hd h => restoringDivide_eq_div_mod hd h, fun r x h0 => ?_⟩
  rw [restoringDivide_eq_div_mod ((mag_pos_iff x).mpr h0) (Nat.pow_lt_pow_succ (by norm_num))]

end Sys2Proof.Machine

end

-- SQRT (spec/43_sqrt.md): the root of the model and the digit recurrence as the integer root of the library, and the
-- obligations on R102, R106 and R109.
section

namespace Sys2Proof.Machine

/-! ## The integer root -/

/-- Each digit halves the interval that holds the root. -/
theorem rootDigits_eq_sqrt {u n root : Nat} (hlow : root * root ≤ u) (hhigh : u < (root + 2 ^ n) * (root + 2 ^ n)) :
    rootDigits u n root = Nat.sqrt u := by
  induction n generalizing root with
  | zero => exact Nat.eq_sqrt.mpr ⟨hlow, hhigh⟩
  | succ n ih =>
    rw [rootDigits]
    split
    next hfits => exact ih hfits (by rwa [add_assoc, ← two_mul, ← pow_succ'])
    next hcut => exact ih hlow (not_le.mp hcut)

/-- R14, for the radicands whose root 24 digits reach (log entry 12). -/
theorem isqrt_eq_sqrt {u : Nat} (h : u < 2 ^ 48) : isqrt u = Nat.sqrt u :=
  rootDigits_eq_sqrt (Nat.zero_le u) (by omega)

/-! ## The digit recurrence -/

/-- The integer root of a number and what its square leaves. -/
def rootAndRemainder (n : Nat) : Nat × Nat := (Nat.sqrt n, n - Nat.sqrt n * Nat.sqrt n)

theorem rootAndRemainder_eq {n root : Nat} (hlow : root * root ≤ n) (hhigh : n < (root + 1) * (root + 1)) :
    rootAndRemainder n = (root, n - root * root) := by
  rw [rootAndRemainder, ← Nat.eq_sqrt.mpr ⟨hlow, hhigh⟩]

/-- One iteration keeps root and remainder of the digits brought down so far: the trial `4r + 1` is what `(2r + 1)^2` has
beyond `4r^2` (R109). -/
theorem rootDigit_rootAndRemainder {pair : Nat} (hpair : pair < 4) (n : Nat) :
    rootDigit pair (rootAndRemainder n) = rootAndRemainder (4 * n + pair) := by
  have hlow := Nat.sqrt_le n
  have hhigh := Nat.sqrt_le_add n
  rw [rootAndRemainder, rootDigit]
  generalize Nat.sqrt n = root at hlow hhigh ⊢
  have heven : 2 * root * (2 * root) = 4 * (root * root) := by ring
  have hodd : (2 * root + 1) * (2 * root + 1) = 4 * (root * root) + 4 * root + 1 := by ring
  have hnext : (2 * root + 1 + 1) * (2 * root + 1 + 1) = 4 * (root * root) + 8 * root + 4 := by ring
  dsimp only
  split
  next hfits =>
    rw [rootAndRemainder_eq (root := 2 * root + 1) (by omega) (by omega), hodd]
    congr 1
    omega
  next hcut =>
    rw [rootAndRemainder_eq (root := 2 * root) (by omega) (by omega), heven]
    congr 1
    omega

/-- Bringing down the next two digits of a number. -/
theorem div_four_pow_eq_pair (m n : Nat) : m / 4 ^ n = 4 * (m / 4 ^ (n + 1)) + m / 4 ^ n % 4 := by
  rw [pow_succ, ← Nat.div_div_eq_div_mul, Nat.div_add_mod]

/-- From root and remainder of the digits above the lowest `n` pairs, the loop ends with those of the radicand (R109). -/
theorem restoringRoot_rootAndRemainder (u n : Nat) :
    restoringRoot u n (rootAndRemainder (u / 4 ^ n)) = rootAndRemainder u := by
  induction n with
  | zero => simp [restoringRoot]
  | succ n ih => rw [restoringRoot, rootDigit_rootAndRemainder (Nat.mod_lt _ (by norm_num)), ← div_four_pow_eq_pair, ih]

theorem restoringRoot_eq_rootAndRemainder {n u : Nat} (h : u < 4 ^ n) : restoringRoot u n (0, 0) = rootAndRemainder u := by
  have hzero : rootAndRemainder (u / 4 ^ n) = (0, 0) := by simp [rootAndRemainder, Nat.div_eq_of_lt h]
  rw [← hzero, restoringRoot_rootAndRemainder]

/-! ## Words from 0 up -/

/-- The sign is clear on the lower half of the words (R14). -/
theorem sgn_false_iff_toNat_lt {w : Word} : sgn w = false ↔ w.toNat < 2 ^ 31 := by
  simp [sgn, BitVec.msb_eq_decide]

theorem mag_eq_toNat_of_nonneg {w : Word} (h : sgn w = false) : mag w = w.toNat := by
  rw [mag_eq_toNat, if_pos (sgn_false_iff_toNat_lt.mp h)]

theorem toNat_word {n : Nat} (h : n < 2 ^ 32) : (word (n : Int)).toNat = n := by
  rw [word, BitVec.ofInt_natCast, BitVec.toNat_ofNat, Nat.mod_eq_of_lt h]

theorem val_of_nonneg {w : Word} (h : sgn w = false) (r : Radix) : val r w = (w.toNat : ℚ) / 2 ^ r.bits := by
  rw [val, ← toNat_of_nonneg h, Int.cast_natCast]

/-- The product of two words from 0 up is the truncated product when that fits (R82). -/
theorem toNat_mulResult_of_nonneg {r : Radix} {a b : Word} (ha : sgn a = false) (hb : sgn b = false)
    (h : a.toNat * b.toNat / 2 ^ r.bits ≤ maxMag) :
    (mulResult r a b).value.toNat = a.toNat * b.toNat / 2 ^ r.bits := by
  rw [mulResult_eq_signedProduct, signedProduct, mag_eq_toNat_of_nonneg ha, mag_eq_toNat_of_nonneg hb, min_eq_left h, ha, hb]
  exact toNat_word (h.trans_lt (by decide))

/-! ## The rule of SQRT -/

/-- The radicand of R102, `x << F`. -/
def radicand (r : Radix) (x : Word) : Nat := x.toNat * 2 ^ r.bits

/-- R102: the radicand fits 47 bits. -/
theorem radicand_lt {x : Word} (h : sgn x = false) (r : Radix) : radicand r x < 2 ^ 47 := by
  have hx := sgn_false_iff_toNat_lt.mp h
  calc x.toNat * 2 ^ r.bits < 2 ^ 31 * 2 ^ r.bits := Nat.mul_lt_mul_of_pos_right hx (Nat.two_pow_pos _)
    _ ≤ 2 ^ 31 * 2 ^ 16 := Nat.mul_le_mul_left _ (Nat.pow_le_pow_right (by norm_num) (bits_le r))

/-- R102: the root fits 24 bits. -/
theorem sqrt_radicand_lt {x : Word} (h : sgn x = false) (r : Radix) : Nat.sqrt (radicand r x) < 2 ^ 24 :=
  Nat.sqrt_lt.mpr ((radicand_lt h r).trans (by norm_num))

theorem sqrtResult_of_neg {x : Word} (h : sgn x = true) (r : Radix) :
    sqrtResult r x = { value := zeroWord, flags := flagINV } := if_pos h

theorem sqrtResult_of_nonneg {x : Word} (h : sgn x = false) (r : Radix) :
    sqrtResult r x = { value := word (Nat.sqrt (radicand r x) : Int), flags := 0#5 } := by
  rw [← isqrt_eq_sqrt ((radicand_lt h r).trans (by norm_num)), sqrtResult, h]
  rfl

theorem toNat_sqrtResult {x : Word} (h : sgn x = false) (r : Radix) :
    (sqrtResult r x).value.toNat = Nat.sqrt (radicand r x) := by
  rw [sqrtResult_of_nonneg h]
  exact toNat_word ((sqrt_radicand_lt h r).trans (by norm_num))

/-- The answer of SQRT is never negative (R106). -/
theorem sgn_sqrtResult {x : Word} (h : sgn x = false) (r : Radix) : sgn (sqrtResult r x).value = false := by
  rw [sgn_false_iff_toNat_lt, toNat_sqrtResult h]
  exact (sqrt_radicand_lt h r).trans (by norm_num)

/-- A SQRT of an operand from 0 up is answered without a flag on every build (R102). -/
theorem exec_sqrt_of_nonneg {x : Word} {s : State} (hf : s.fault = false) (h : sgn x = false) :
    exec (.sqrt x) s = .next (answersWith s (sqrtResult s.build.radix x).value 0#5) := by
  rw [sqrtResult_of_nonneg h]
  exact exec_of_operation_eq hf (sqrtResult_of_nonneg h _) (selects_no_flag _)

/-! ## The real root -/

/-- A multiple `n` of `2^-F` is at most the root of the value `x` exactly when `n * n` is at most the radicand (R102). -/
theorem scaled_sq_le_iff (n x f : Nat) :
    (n : ℚ) / 2 ^ f * ((n : ℚ) / 2 ^ f) ≤ (x : ℚ) / 2 ^ f ↔ n * n ≤ x * 2 ^ f := by
  rw [div_mul_div_comm, ← div_div, div_le_div_iff_of_pos_right (by positivity), div_le_iff₀ (by positivity)]
  exact_mod_cast Iff.rfl

/-- The value of the integer root is the real root rounded down to a multiple of `2^-F` (R102). -/
theorem real_root_bounds {r : Radix} {v x : Word} (hx : sgn x = false) (hv : sgn v = false)
    (hroot : v.toNat = Nat.sqrt (radicand r x)) :
    val r v * val r v ≤ val r x ∧ val r x < (val r v + 1 / 2 ^ r.bits) * (val r v + 1 / 2 ^ r.bits) := by
  obtain ⟨hlow, hhigh⟩ := Nat.eq_sqrt.mp hroot
  rw [val_of_nonneg hx, val_of_nonneg hv, ← add_div, ← Nat.cast_add_one]
  exact ⟨(scaled_sq_le_iff _ _ _).mpr hlow, not_le.mp (mt (scaled_sq_le_iff _ _ _).mp (not_le.mpr hhigh))⟩

/-! ## The laws of R106 -/

theorem sqrt_radicand_mono {x x' : Word} (h : x.toNat ≤ x'.toNat) (r : Radix) :
    Nat.sqrt (radicand r x) ≤ Nat.sqrt (radicand r x') :=
  Nat.sqrt_le_sqrt (Nat.mul_le_mul_right _ h)

/-- The root of the largest operand bounds all of them (R106). -/
theorem sqrt_radicand_le {x : Word} (h : sgn x = false) (r : Radix) :
    Nat.sqrt (radicand r x) ≤ match r with
      | .r16 => 0x00B504F3
      | .r12 => 0x002D413C := by
  have hx := sgn_false_iff_toNat_lt.mp h
  cases r <;> exact Nat.lt_succ_iff.mp (Nat.sqrt_lt.mpr (by simp only [radicand, Radix.bits]; omega))

/-- The truncated square of the root is at most the operand (R106). -/
theorem truncated_sq_le (r : Radix) (x : Word) :
    Nat.sqrt (radicand r x) * Nat.sqrt (radicand r x) / 2 ^ r.bits ≤ x.toNat :=
  Nat.div_le_of_le_mul ((Nat.sqrt_le _).trans_eq (Nat.mul_comm _ _))

/-- What the square of the root and its truncation can lose together (R106). -/
theorem radicand_lt_truncated_sq (r : Radix) (x : Word) :
    radicand r x < Nat.sqrt (radicand r x) * Nat.sqrt (radicand r x) / 2 ^ r.bits * 2 ^ r.bits +
      2 * Nat.sqrt (radicand r x) + 2 ^ r.bits := by
  have hroot := Nat.sqrt_le_add (radicand r x)
  have htrunc := Nat.lt_div_mul_add (a := Nat.sqrt (radicand r x) * Nat.sqrt (radicand r x)) (Nat.two_pow_pos r.bits)
  omega

/-- A perfect square has its exact root (R106). -/
theorem sqrt_radicand_of_sq {r : Radix} {x : Word} {n : Nat} (h : n * n = radicand r x) : Nat.sqrt (radicand r x) = n := by
  rw [← h, Nat.sqrt_eq]

/-! ## The obligations -/

/-- Settles O25: the root of the model is the integer root of the radicand. -/
theorem sqrtAnswersIntegerRoot : Obligations.SqrtAnswersIntegerRoot := by
  refine ⟨?_, rfl, rfl⟩
  intro x s hf f
  refine ⟨fun hneg hs => ?_, fun hx => ?_⟩
  · exact exec_of_operation_eq hf (sqrtResult_of_neg hneg s.build.radix) hs
  · have hroot := toNat_sqrtResult hx s.build.radix
    have hsgn := sgn_sqrtResult hx s.build.radix
    obtain ⟨hlow, hhigh⟩ := Nat.eq_sqrt.mp hroot
    exact ⟨radicand_lt hx _, _, exec_sqrt_of_nonneg hf hx, hroot.trans_lt (sqrt_radicand_lt hx _), hlow, hhigh,
      by rw [val_of_nonneg hsgn]; positivity, real_root_bounds hx hsgn hroot⟩

/-- Settles O26: each law is one of the integer root of the radicand. -/
theorem sqrtLawsWithMul : Obligations.SqrtLawsWithMul := by
  intro r x x' hx hx' v
  have hroot : v.toNat = Nat.sqrt (radicand r x) := toNat_sqrtResult hx r
  have hsgn : sgn v = false := sgn_sqrtResult hx r
  have hsq : v.toNat * v.toNat / 2 ^ r.bits ≤ x.toNat := hroot ▸ truncated_sq_le r x
  have hfits : v.toNat * v.toNat / 2 ^ r.bits ≤ maxMag :=
    hsq.trans (Nat.le_of_lt_succ (sgn_false_iff_toNat_lt.mp hx))
  have hovf : (mulResult r v v).flags ≠ flagOVF := by
    rw [Ne, mulResult_flags_eq_flagOVF_iff, mag_eq_toNat_of_nonneg hsgn]
    exact not_lt.mpr hfits
  rw [toNat_mulResult_of_nonneg hsgn hsgn hfits, toNat_sqrtResult hx']
  refine ⟨fun h => hroot ▸ sqrt_radicand_mono h r, hroot ▸ sqrt_radicand_le hx r, hovf, hsq,
    hroot ▸ radicand_lt_truncated_sq r x, fun n h => hroot ▸ sqrt_radicand_of_sq h, fun k h => ?_⟩
  have hperfect : k * 2 ^ r.bits * (k * 2 ^ r.bits) = radicand r x := by
    rw [radicand, h]
    ring
  rw [hroot, sqrt_radicand_of_sq hperfect]

/-- Settles O27: both are the integer root of the library. -/
theorem digitRecurrenceComputesTheRoot : Obligations.DigitRecurrenceComputesTheRoot := by
  refine ⟨fun n u h => ?_, fun u h => ?_⟩
  · rw [restoringRoot_eq_rootAndRemainder h]
    exact ⟨Nat.sqrt_le u, Nat.lt_succ_sqrt u, rfl⟩
  · rw [restoringRoot_eq_rootAndRemainder (h.trans_eq (by norm_num)), isqrt_eq_sqrt h, rootAndRemainder]

end Sys2Proof.Machine

end

-- FLOOR, CEIL and TRUNC (spec/44_rounding.md): the masks as arithmetic on integers, the three results as multiples of `2^F`
-- beside the operand, and the obligations on R111, R114, R115, R117 and R120.
section

namespace Sys2Proof.Machine

/-! ## The largest multiple of ONE not above an integer -/

/-- `(z >> F) << F`, which FLOOR makes of its operand and CEIL of the operand less one unit (R111, R114). -/
def floorMultiple (r : Radix) (z : Int) : Int := z / 2 ^ r.bits * 2 ^ r.bits

theorem two_pow_bits_dvd_floorMultiple (r : Radix) (z : Int) : (2 ^ r.bits : Int) ∣ floorMultiple r z :=
  dvd_mul_left _ _

theorem floorMultiple_le (r : Radix) (z : Int) : floorMultiple r z ≤ z :=
  Int.ediv_mul_le z (by positivity)

theorem lt_floorMultiple_add (r : Radix) (z : Int) : z < floorMultiple r z + 2 ^ r.bits := by
  have hlt := Int.lt_ediv_add_one_mul_self z (show (0 : Int) < 2 ^ r.bits by positivity)
  rwa [add_one_mul] at hlt

theorem floorMultiple_of_dvd {r : Radix} {z : Int} (h : (2 ^ r.bits : Int) ∣ z) : floorMultiple r z = z :=
  Int.ediv_mul_cancel h

/-- `2^31` is a multiple of `2^F`, so rounding down stays in the range of a word (R112). -/
theorem neg_le_floorMultiple {r : Radix} {z : Int} (h : -(2 ^ 31) ≤ z) : -(2 ^ 31) ≤ floorMultiple r z := by
  cases r <;> simp only [floorMultiple, Radix.bits] <;> omega

/-! ## The sum of CEIL -/

/-- `floor(x - 1_ulp) + 1.0`, the formula of R113. -/
theorem ceilSum_eq (r : Radix) (x : Word) : ceilSum r x = floorMultiple r (sint x - 1) + 2 ^ r.bits := rfl

/-- The formula of CEIL rounds up, the mirror image of rounding down (R114, R120). -/
theorem ceilSum_eq_neg_floorMultiple (r : Radix) (x : Word) : ceilSum r x = -floorMultiple r (-sint x) := by
  cases r <;> simp only [ceilSum_eq, floorMultiple, Radix.bits] <;> omega

theorem two_pow_bits_dvd_ceilSum (r : Radix) (x : Word) : (2 ^ r.bits : Int) ∣ ceilSum r x :=
  dvd_add (two_pow_bits_dvd_floorMultiple r _) dvd_rfl

theorem le_ceilSum (r : Radix) (x : Word) : sint x ≤ ceilSum r x := by
  have hle := floorMultiple_le r (-sint x)
  rw [ceilSum_eq_neg_floorMultiple]
  omega

theorem ceilSum_lt (r : Radix) (x : Word) : ceilSum r x < sint x + 2 ^ r.bits := by
  have hlt := lt_floorMultiple_add r (-sint x)
  rw [ceilSum_eq_neg_floorMultiple]
  omega

theorem ceilSum_of_dvd {r : Radix} {x : Word} (h : (2 ^ r.bits : Int) ∣ sint x) : ceilSum r x = sint x := by
  rw [ceilSum_eq_neg_floorMultiple, floorMultiple_of_dvd (dvd_neg.mpr h), neg_neg]

/-- Between two multiples of `2^F` the one above is the next after the one below (R120). -/
theorem ceilSum_of_not_dvd {r : Radix} {x : Word} (h : ¬(2 ^ r.bits : Int) ∣ sint x) :
    ceilSum r x = floorMultiple r (sint x) + 2 ^ r.bits := by
  cases r <;> simp only [ceilSum_eq, floorMultiple, Radix.bits] at h ⊢ <;> omega

/-- No sum is below MINPAT (R114). -/
theorem neg_le_ceilSum (r : Radix) (x : Word) : -(2 ^ 31) ≤ ceilSum r x :=
  (sint_lower x).trans (le_ceilSum r x)

theorem sint_maxIntWord (r : Radix) : sint (maxIntWord r) = 2 ^ 31 - 2 ^ r.bits := by
  cases r <;> rfl

/-- MAXINT is a multiple of `2^F`, so the operands up to it have a ceiling that fits (R115). -/
theorem maxMag_lt_ceilSum_iff {r : Radix} {x : Word} :
    (maxMag : Int) < ceilSum r x ↔ sint (maxIntWord r) < sint x := by
  rw [sint_maxIntWord]
  cases r <;> simp only [ceilSum_eq, floorMultiple, maxMag, Radix.bits] <;> omega

/-- The operands above MAXINT, as words (R115). -/
theorem maxIntWord_lt_iff_range {r : Radix} {x : Word} :
    sint (maxIntWord r) < sint x ↔ (match r with
      | .r16 => 0x7FFF0001#32
      | .r12 => 0x7FFFF001#32) ≤ x ∧ x ≤ 0x7FFFFFFF#32 := by
  have hlt := x.isLt
  rw [sint_maxIntWord, sint, BitVec.toInt_eq_toNat_cond]
  cases r <;> simp only [Radix.bits, BitVec.le_def, BitVec.toNat_ofNat] <;> split_ifs <;> omega

/-- The first sum that does not fit is the only one (R115). -/
theorem ceilSum_of_overflow {r : Radix} {x : Word} (h : (maxMag : Int) < ceilSum r x) : ceilSum r x = 2 ^ 31 := by
  have hhigh := sint_upper x
  cases r <;> simp only [ceilSum_eq, floorMultiple, maxMag, Radix.bits] at h ⊢ <;> omega

/-! ## The masks -/

theorem intMask_eq_shiftLeft (r : Radix) : intMask r = BitVec.allOnes 32 <<< r.bits := by
  cases r <;> rfl

/-- Clearing the low `F` bits of a number of 32 bits (R110). -/
theorem and_intMask_toNat {r : Radix} {n : Nat} (h : n < 2 ^ 32) :
    n &&& (intMask r).toNat = n / 2 ^ r.bits * 2 ^ r.bits := by
  have hn : (BitVec.ofNat 32 n).toNat = n := by rw [BitVec.toNat_ofNat, Nat.mod_eq_of_lt h]
  have hle : n / 2 ^ r.bits * 2 ^ r.bits < 2 ^ 32 := (Nat.div_mul_le_self _ _).trans_lt h
  calc n &&& (intMask r).toNat
      = (BitVec.ofNat 32 n >>> r.bits <<< r.bits).toNat := by
        rw [BitVec.shiftLeft_ushiftRight, ← intMask_eq_shiftLeft, BitVec.toNat_and, hn]
    _ = n / 2 ^ r.bits * 2 ^ r.bits := by
        rw [BitVec.toNat_shiftLeft, BitVec.toNat_ushiftRight, hn, Nat.shiftRight_eq_div_pow, Nat.shiftLeft_eq,
          Nat.mod_eq_of_lt hle]

theorem toNat_word_eq_emod (z : Int) : ((word z).toNat : Int) = z % 2 ^ 32 := by
  rw [word, BitVec.toNat_ofInt]
  omega

/-- Masking of the high bits commutes with reduction modulo `2^32` (R114). -/
theorem word_and_intMask (r : Radix) (z : Int) : word z &&& intMask r = word (floorMultiple r z) := by
  have hz := toNat_word_eq_emod z
  have hfloor := toNat_word_eq_emod (floorMultiple r z)
  apply BitVec.eq_of_toNat_eq
  rw [BitVec.toNat_and, and_intMask_toNat (word z).isLt]
  cases r <;> simp only [floorMultiple, Radix.bits] at hfloor ⊢ <;> omega

/-- The fraction bits of a word are clear exactly when it stands for a whole number (R110). -/
theorem word_and_fracMask_eq_zero_iff {r : Radix} {z : Int} :
    word z &&& fracMask r = 0#32 ↔ (2 ^ r.bits : Int) ∣ z := by
  have hz := toNat_word_eq_emod z
  have hmask : (fracMask r).toNat = 2 ^ r.bits - 1 := by cases r <;> rfl
  rw [← BitVec.toNat_inj, BitVec.toNat_and, hmask, Nat.and_two_pow_sub_one_eq_mod]
  cases r <;> simp only [Radix.bits, BitVec.toNat_ofNat] <;> omega

theorem and_fracMask_eq_zero_iff {r : Radix} {x : Word} : x &&& fracMask r = 0#32 ↔ (2 ^ r.bits : Int) ∣ sint x := by
  rw [← word_and_fracMask_eq_zero_iff, word_sint]

/-! ## Real values -/

theorem val_eq_intCast_iff {r : Radix} {w : Word} {n : Int} : val r w = n ↔ sint w = n * 2 ^ r.bits := by
  rw [← val_eq_div_iff (r := r)]
  push_cast
  rw [mul_div_cancel_right₀ _ (by positivity)]

theorem floor_val (r : Radix) (w : Word) : ⌊val r w⌋ = sint w / 2 ^ r.bits := by
  rw [val]
  exact_mod_cast Rat.floor_intCast_div_natCast (sint w) (2 ^ r.bits)

theorem ceil_val (r : Radix) (w : Word) : ⌈val r w⌉ = -(-sint w / 2 ^ r.bits) := by
  rw [val]
  exact_mod_cast Rat.ceil_intCast_div_natCast (sint w) (2 ^ r.bits)

/-- The sum of CEIL is the ceiling of the value in units of `2^-F` (R114). -/
theorem ceilSum_eq_ceil_val (r : Radix) (x : Word) : ceilSum r x = ⌈val r x⌉ * 2 ^ r.bits := by
  rw [ceilSum_eq_neg_floorMultiple, ceil_val, neg_mul, floorMultiple]

/-! ## The rule of FLOOR -/

theorem floorResult_eq (r : Radix) (x : Word) :
    floorResult r x = { value := word (floorMultiple r (sint x)), flags := 0#5 } := by
  rw [← word_and_intMask, word_sint, floorResult]

theorem sint_floorResult (r : Radix) (x : Word) : sint (floorResult r x).value = floorMultiple r (sint x) := by
  rw [floorResult_eq]
  exact sint_word (neg_le_floorMultiple (sint_lower x)) ((floorMultiple_le r _).trans_lt (sint_upper x))

/-- FLOOR answers the floor of the value, for either sign (R111). -/
theorem val_floorResult (r : Radix) (x : Word) : val r (floorResult r x).value = (⌊val r x⌋ : ℚ) := by
  rw [val_eq_intCast_iff, sint_floorResult, floor_val, floorMultiple]

theorem two_pow_bits_dvd_floorResult (r : Radix) (x : Word) : (2 ^ r.bits : Int) ∣ sint (floorResult r x).value := by
  rw [sint_floorResult]
  exact two_pow_bits_dvd_floorMultiple r _

theorem floorResult_of_dvd {r : Radix} {x : Word} (h : (2 ^ r.bits : Int) ∣ sint x) :
    floorResult r x = { value := x, flags := 0#5 } := by
  rw [floorResult_eq, floorMultiple_of_dvd h, word_sint]

theorem abs_floorResult_sub_lt (r : Radix) (x : Word) : |sint (floorResult r x).value - sint x| < 2 ^ r.bits := by
  have hle := floorMultiple_le r (sint x)
  have hlt := lt_floorMultiple_add r (sint x)
  rw [sint_floorResult, abs_lt]
  omega

/-! ## The rule of CEIL -/

theorem ceilResult_of_overflow {r : Radix} {x : Word} (h : (maxMag : Int) < ceilSum r x) :
    ceilResult r x = { value := maxMagWord, flags := flagOVF } := if_pos h

theorem ceilResult_of_fits {r : Radix} {x : Word} (h : ceilSum r x ≤ maxMag) :
    ceilResult r x = { value := word (ceilSum r x), flags := 0#5 } := if_neg h.not_gt

/-- OVF is raised exactly when the sum does not fit (R115). -/
theorem ceilResult_flags_eq_flagOVF_iff {r : Radix} {x : Word} :
    (ceilResult r x).flags = flagOVF ↔ (maxMag : Int) < ceilSum r x := by
  rcases lt_or_ge (maxMag : Int) (ceilSum r x) with h | h
  · simp [ceilResult_of_overflow h, h]
  · simp [ceilResult_of_fits h, h.not_gt, flagOVF]

theorem ceilResult_flags_eq_zero_iff {r : Radix} {x : Word} :
    (ceilResult r x).flags = 0#5 ↔ ceilSum r x ≤ maxMag := by
  rcases lt_or_ge (maxMag : Int) (ceilSum r x) with h | h
  · simp [ceilResult_of_overflow h, h.not_ge, flagOVF]
  · simp [ceilResult_of_fits h, h]

theorem sint_word_ceilSum {r : Radix} {x : Word} (h : ceilSum r x ≤ maxMag) : sint (word (ceilSum r x)) = ceilSum r x :=
  sint_word (neg_le_ceilSum r x) (h.trans_lt (by decide))

theorem sint_ceilResult {r : Radix} {x : Word} (h : ceilSum r x ≤ maxMag) :
    sint (ceilResult r x).value = ceilSum r x := by
  rw [ceilResult_of_fits h]
  exact sint_word_ceilSum h

/-- The formula of R113 in wrapping 32-bit arithmetic is the sum over the integers reduced modulo `2^32` (R114). -/
theorem word_ceilSum_eq_wrapping (r : Radix) (x : Word) :
    word (ceilSum r x) = ((x - 1#32) &&& intMask r) + oneWord r := by
  have hpred : x - 1#32 = word (sint x - 1) := by
    rw [sub_eq_add_neg, sub_eq_add_neg, word, BitVec.ofInt_add, sint, BitVec.ofInt_toInt]
    rfl
  have hone : oneWord r = word (2 ^ r.bits) := by cases r <;> rfl
  rw [hpred, word_and_intMask, hone, ceilSum_eq]
  exact BitVec.ofInt_add _ _

/-- The mirror image of R120: without a flag CEIL is FLOOR of the negated operand, negated. -/
theorem sint_ceilResult_eq_neg_floor {r : Radix} {x : Word} (hx : x ≠ minPat) (h : ceilSum r x ≤ maxMag) :
    sint (ceilResult r x).value = -sint (floorResult r (word (-sint x))).value := by
  rw [sint_ceilResult h, sint_floorResult, sint_word_neg hx, ceilSum_eq_neg_floorMultiple]

/-- MAXMAG, the saturated result, is still less than ONE from the operand (R120). -/
theorem abs_ceilResult_sub_lt (r : Radix) (x : Word) : |sint (ceilResult r x).value - sint x| < 2 ^ r.bits := by
  have hle := le_ceilSum r x
  have hlt := ceilSum_lt r x
  rw [abs_lt]
  rcases lt_or_ge (maxMag : Int) (ceilSum r x) with h | h
  · have hhigh := sint_upper x
    rw [ceilSum_of_overflow h] at hlt
    rw [ceilResult_of_overflow h, sint_maxMagWord]
    omega
  · rw [sint_ceilResult h]
    omega

theorem two_pow_bits_dvd_ceilResult {r : Radix} {x : Word} (h : ceilSum r x ≤ maxMag) :
    (2 ^ r.bits : Int) ∣ sint (ceilResult r x).value := by
  rw [sint_ceilResult h]
  exact two_pow_bits_dvd_ceilSum r x

/-- A whole number is at most MAXINT, so its ceiling fits (R115, R120). -/
theorem ceilResult_of_dvd {r : Radix} {x : Word} (h : (2 ^ r.bits : Int) ∣ sint x) :
    ceilResult r x = { value := x, flags := 0#5 } := by
  have hsum := ceilSum_of_dvd h
  rw [ceilResult_of_fits (hsum.trans_le (Int.le_of_lt_add_one (sint_upper x))), hsum, word_sint]

/-- The saturated result rounds up to itself again, with OVF again (R120). -/
theorem ceilResult_maxMagWord (r : Radix) : ceilResult r maxMagWord = { value := maxMagWord, flags := flagOVF } := by
  cases r <;> rfl

/-- Rounding up twice is rounding up once: a sum that fits is whole, and MAXMAG saturates again (R120). -/
theorem ceilResult_ceilResult (r : Radix) (x : Word) : ceilResult r (ceilResult r x).value = ceilResult r x := by
  rcases lt_or_ge (maxMag : Int) (ceilSum r x) with h | h
  · rw [ceilResult_of_overflow h]
    exact ceilResult_maxMagWord r
  · rw [ceilResult_of_dvd (two_pow_bits_dvd_ceilResult h), ceilResult_of_fits h]

/-! ## The rule of TRUNC -/

theorem truncResult_eq (r : Radix) (x : Word) :
    truncResult r x = { value := sword (sgn x) (mag x / 2 ^ r.bits * 2 ^ r.bits), flags := 0#5 } := by
  rw [truncResult, and_intMask_toNat ((mag_le x).trans_lt (by norm_num))]

/-- From zero up the magnitude is the word, and masking it is FLOOR (R117). -/
theorem truncResult_of_nonneg {x : Word} (h : 0 ≤ sint x) (r : Radix) : truncResult r x = floorResult r x := by
  rw [truncResult_eq, floorResult_eq, (sgn_false_iff x).mpr h, floorMultiple, ← mag_of_nonneg h]
  rfl

/-- CEIL raises no flag below zero (R120). -/
theorem ceilSum_le_maxMag_of_neg {x : Word} (h : sint x < 0) (r : Radix) : ceilSum r x ≤ maxMag := by
  have hlt := ceilSum_lt r x
  have hone : (2 : Int) ^ r.bits ≤ maxMag := by cases r <;> decide
  omega

/-- Below zero masking the magnitude rounds up, which is CEIL (R117). -/
theorem truncResult_of_neg {x : Word} (h : sint x < 0) (r : Radix) : truncResult r x = ceilResult r x := by
  rw [truncResult_eq, ceilResult_of_fits (ceilSum_le_maxMag_of_neg h r), (sgn_iff x).mpr h, ceilSum_eq_neg_floorMultiple,
    floorMultiple, ← mag_of_neg h]
  rfl

/-- TRUNC is one of the other two, and it is CEIL only where CEIL raises no flag (R117, R120). -/
theorem truncResult_cases (r : Radix) (x : Word) :
    truncResult r x = floorResult r x ∨ (truncResult r x = ceilResult r x ∧ ceilSum r x ≤ maxMag) := by
  rcases lt_or_ge (sint x) 0 with h | h
  · exact .inr ⟨truncResult_of_neg h r, ceilSum_le_maxMag_of_neg h r⟩
  · exact .inl (truncResult_of_nonneg h r)

/-- TRUNC is odd (R120). -/
theorem truncResult_word_neg {x : Word} (h : x ≠ minPat) (r : Radix) :
    (truncResult r (word (-sint x))).value = word (-sint (truncResult r x).value) := by
  have hfits : mag x / 2 ^ r.bits * 2 ^ r.bits ≤ maxMag := (Nat.div_mul_le_self _ _).trans (mag_le_maxMag h)
  by_cases h0 : x = zeroWord
  · subst h0
    simp [truncResult_eq, show word (-sint zeroWord) = zeroWord from rfl]
  · rw [truncResult_eq, truncResult_eq, mag_word_neg h, sgn_word_neg h h0]
    exact sword_not hfits

theorem two_pow_bits_dvd_truncResult (r : Radix) (x : Word) : (2 ^ r.bits : Int) ∣ sint (truncResult r x).value := by
  obtain h | ⟨h, hfits⟩ := truncResult_cases r x
  · exact h ▸ two_pow_bits_dvd_floorResult r x
  · exact h ▸ two_pow_bits_dvd_ceilResult hfits

theorem truncResult_of_dvd {r : Radix} {x : Word} (h : (2 ^ r.bits : Int) ∣ sint x) :
    truncResult r x = { value := x, flags := 0#5 } := by
  obtain htrunc | ⟨htrunc, -⟩ := truncResult_cases r x
  · exact htrunc.trans (floorResult_of_dvd h)
  · exact htrunc.trans (ceilResult_of_dvd h)

theorem abs_truncResult_sub_lt (r : Radix) (x : Word) : |sint (truncResult r x).value - sint x| < 2 ^ r.bits := by
  obtain h | ⟨h, -⟩ := truncResult_cases r x
  · exact h ▸ abs_floorResult_sub_lt r x
  · exact h ▸ abs_ceilResult_sub_lt r x

/-! ## The obligations -/

/-- Settles O28. -/
theorem floorAnswersTheFloor : Obligations.FloorAnswersTheFloor := by
  intro x b s hf
  obtain ⟨-, -, -, -, hdecode, -⟩ := decodeFollowsTheOpcodeMap.2 x b
  exact ⟨hdecode, rfl, exec_of_operation_eq hf rfl (selects_no_flag _), sint_floorResult _ x, val_floorResult _ x⟩

/-- Settles O29: `c` is the sum of the rule. -/
theorem ceilAnswersTheCeiling : Obligations.CeilAnswersTheCeiling := by
  intro x s hf f c
  have hc : c = ceilSum s.build.radix x := rfl
  rw [hc]
  refine ⟨fun hovf hs => ?_, fun hfits => ⟨?_, sint_word_ceilSum hfits, ?_, word_ceilSum_eq_wrapping _ x⟩,
    neg_le_ceilSum _ x, ?_⟩
  · exact exec_of_operation_eq hf (ceilResult_of_overflow hovf) hs
  · exact exec_of_operation_eq hf (ceilResult_of_fits hfits) (selects_no_flag _)
  · rw [val_eq_intCast_iff, sint_word_ceilSum hfits, ceilSum_eq_ceil_val]
  · rintro rfl
    cases s.build.radix <;> exact ⟨rfl, rfl⟩

/-- Settles O30: MAXMAG has fraction bits, and every other result of the family is whole. -/
theorem ceilOverflowsExactlyAboveMaxInt : Obligations.CeilOverflowsExactlyAboveMaxInt := by
  intro r x
  rw [ceilResult_flags_eq_flagOVF_iff]
  refine ⟨Iff.rfl, maxMag_lt_ceilSum_iff, maxMag_lt_ceilSum_iff.trans maxIntWord_lt_iff_range, fun h => ?_, ?_, ?_,
    and_fracMask_eq_zero_iff.mpr (two_pow_bits_dvd_floorResult r x),
    and_fracMask_eq_zero_iff.mpr (two_pow_bits_dvd_truncResult r x)⟩
  · exact ⟨by rw [ceilResult_of_overflow h]; rfl, ceilSum_of_overflow h⟩
  · rw [ceilResult_flags_eq_zero_iff]
    exact lt_or_ge _ _
  · constructor
    · intro h
      rw [ceilResult_of_overflow h]
      cases r <;> decide
    · intro hfrac
      by_contra h
      exact hfrac (and_fracMask_eq_zero_iff.mpr (two_pow_bits_dvd_ceilResult (not_lt.mp h)))

/-- Settles O31: TRUNC is FLOOR from zero up and CEIL below, where CEIL raises no flag. -/
theorem truncAnswersTheValueRoundedTowardZero : Obligations.TruncAnswersTheValueRoundedTowardZero := by
  intro x b s hf r v
  obtain ⟨-, -, -, -, -, -, hdecode, -⟩ := decodeFollowsTheOpcodeMap.2 x b
  have hrule : truncResult r x = { value := v, flags := 0#5 } := truncResult_eq r x
  have hv : v = (truncResult r x).value := by rw [hrule]
  refine ⟨hdecode, rfl, exec_of_operation_eq hf hrule (selects_no_flag _),
    and_intMask_toNat ((mag_le x).trans_lt (by norm_num)), ?_, fun h => ?_, ?_⟩
  · rw [hv]
    split
    next hneg =>
      have hx := (sgn_iff x).mp hneg
      rw [truncResult_of_neg hx, val_eq_intCast_iff, sint_ceilResult (ceilSum_le_maxMag_of_neg hx r), ceilSum_eq_ceil_val]
    next hpos =>
      have hx := (sgn_false_iff x).mp (Bool.eq_false_of_not_eq_true hpos)
      rw [truncResult_of_nonneg hx, val_floorResult]
  · rw [hv, truncResult_of_nonneg ((sgn_false_iff x).mp h)]
    rfl
  · rintro rfl
    rw [hv]
    cases r <;> rfl

/-- Settles O32: TRUNC is one of the two that bracket the operand, and those differ only on a fraction. -/
theorem roundingsBracketTheOperand : Obligations.RoundingsBracketTheOperand := by
  intro r x fl ce tr clean
  have hfl : sint fl ≤ sint x := sint_floorResult r x ▸ floorMultiple_le r (sint x)
  have hce (h : clean) : sint x ≤ sint ce :=
    sint_ceilResult (ceilResult_flags_eq_zero_iff.mp h) ▸ le_ceilSum r x
  have htr : tr = fl ∨ (tr = ce ∧ ceilSum r x ≤ maxMag) :=
    (truncResult_cases r x).imp (congrArg OpResult.value) (And.imp_left (congrArg OpResult.value))
  have htrpos (h : 0 ≤ sint x) : tr = fl := congrArg OpResult.value (truncResult_of_nonneg h r)
  have htrneg (h : sint x < 0) : clean ∧ tr = ce :=
    ⟨ceilResult_flags_eq_zero_iff.mpr (ceilSum_le_maxMag_of_neg h r), congrArg OpResult.value (truncResult_of_neg h r)⟩
  refine ⟨⟨?_, hfl⟩, fun h => ⟨?_, hce h⟩, fun h => ?_, fun hfrac h => ?_, htrpos, htrneg⟩
  · obtain htr | ⟨htr, hfits⟩ := htr
    · exact htr ▸ le_rfl
    · exact htr ▸ hfl.trans (hce (ceilResult_flags_eq_zero_iff.mpr hfits))
  · obtain htr | ⟨htr, -⟩ := htr
    · exact htr ▸ hfl.trans (hce h)
    · exact htr ▸ le_rfl
  · rw [and_fracMask_eq_zero_iff] at h
    exact ⟨congrArg OpResult.value (floorResult_of_dvd h), congrArg OpResult.value (ceilResult_of_dvd h),
      congrArg OpResult.value (truncResult_of_dvd h)⟩
  · rw [Ne, and_fracMask_eq_zero_iff] at hfrac
    exact (sint_ceilResult (ceilResult_flags_eq_zero_iff.mp h)).trans
      (sint_floorResult r x ▸ ceilSum_of_not_dvd hfrac)

/-- Settles O33: a rounded word is whole, and a whole word is its own rounding. -/
theorem roundingsAreIdempotentAndMirrored : Obligations.RoundingsAreIdempotentAndMirrored := by
  intro r x fl ce tr clean
  have hfloor : (floorResult r fl).value = fl :=
    congrArg OpResult.value (floorResult_of_dvd (two_pow_bits_dvd_floorResult r x))
  have htrunc : (truncResult r tr).value = tr :=
    congrArg OpResult.value (truncResult_of_dvd (two_pow_bits_dvd_truncResult r x))
  have hceil : ceilResult r ce = ceilResult r x := ceilResult_ceilResult r x
  exact ⟨hfloor, htrunc, fun _ => hceil, fun _ => hceil,
    fun hx h => sint_ceilResult_eq_neg_floor hx (ceilResult_flags_eq_zero_iff.mp h), fun hx => truncResult_word_neg hx r,
    abs_floorResult_sub_lt r x, abs_ceilResult_sub_lt r x, abs_truncResult_sub_lt r x⟩

end Sys2Proof.Machine

end

-- RDST, CLRST, RDCFG, the reserved opcodes and the idle unit (spec/45_control_ops.md): a request that raises no flag is always
-- answered, the fields of CONFIG, and the obligations on R127, R128, R129, R131 and R136.
section

namespace Sys2Proof.Machine

/-! ## Requests that raise no flag -/

/-- A request without a flag adds nothing to STATUS, it can only clear. -/
@[simp] theorem accumulate_no_flag (st clr : FlagSet) : accumulate st clr 0#5 = st &&& ~~~clr := BitVec.or_zero

/-- A request that raises no flag is answered on every build, and its mask is cleared from STATUS (R17). -/
theorem exec_of_no_flag {i : Instr} {v : Word} {clr : FlagSet} {s : State} (hf : s.fault = false)
    (h : operation s.build s.status i = { value := v, flags := 0#5, clr := clr }) :
    exec i s = .next { s with status := s.status &&& ~~~clr, rsp := some { result := v, flags := 0#5 } } := by
  rw [exec_eq_commit, h, commit_answered hf (selects_no_flag _), answer, accumulate_no_flag]

/-- A request that neither raises nor clears a flag changes nothing but the response. -/
theorem exec_of_reading {i : Instr} {v : Word} {s : State} (hf : s.fault = false)
    (h : operation s.build s.status i = { value := v, flags := 0#5 }) :
    exec i s = .next { s with rsp := some { result := v, flags := 0#5 } } := by
  have hkeep : s.status &&& ~~~0#5 = s.status := BitVec.and_allOnes
  rw [exec_of_no_flag hf h, hkeep]

theorem exec_rdst {s : State} (hf : s.fault = false) :
    exec .rdst s = .next { s with rsp := some { result := s.status.setWidth 32, flags := 0#5 } } :=
  exec_of_reading hf rfl

theorem exec_clrst {s : State} (hf : s.fault = false) (m : FlagSet) :
    exec (.clrst m) s =
      .next { s with status := s.status &&& ~~~m, rsp := some { result := s.status.setWidth 32, flags := 0#5 } } :=
  exec_of_no_flag hf rfl

theorem exec_rdcfg {s : State} (hf : s.fault = false) :
    exec .rdcfg s = .next { s with rsp := some { result := configWord s.build, flags := 0#5 } } :=
  exec_of_reading hf rfl

/-- CLRST with an empty mask and RDST have the same rule (R128). -/
theorem exec_clrst_no_mask (s : State) : exec (.clrst 0#5) s = exec .rdst s := by
  have hrule : clrstResult s.status 0#5 = rdstResult s.status := rfl
  exact congrArg (commit s) hrule

/-- The image of a flag set in a word is the same number (R14). -/
theorem toNat_flagImage (f : FlagSet) : (flagImage f).toNat = f.toNat :=
  BitVec.toNat_setWidth_of_le (by decide)

/-- A bit stays set under CLRST exactly when it was set and the mask spares it (R128). -/
theorem getLsbD_and_not {k : Nat} (hk : k < 5) (st m : FlagSet) :
    (st &&& ~~~m).getLsbD k = (st.getLsbD k && !m.getLsbD k) := by
  rw [BitVec.getLsbD_and, BitVec.getLsbD_not, decide_eq_true hk, Bool.true_and]

/-! ## CONFIG -/

/-- The number CONFIG is: VERSION, ASSERT_MASK and RADIX at their places (R32). -/
theorem configWord_toNat (b : Build) :
    (configWord b).toNat = 0x10 * 2 ^ 16 + b.assertMask.toNat * 2 ^ 8 + b.radix.bits := by
  have hbits := bits_le b.radix
  have happend : (configWord b).toNat =
      (0#8 ++ configVersion ++ 0#3 ++ b.assertMask ++ 0#2 ++ BitVec.ofNat 6 b.radix.bits).toNat := rfl
  simp only [happend, append_toNat, configVersion, BitVec.toNat_ofNat]
  omega

theorem toNat_configWord_field (b : Build) (start len : Nat) : ((configWord b).extractLsb' start len).toNat =
    (0x10 * 2 ^ 16 + b.assertMask.toNat * 2 ^ 8 + b.radix.bits) / 2 ^ start % 2 ^ len := by
  rw [BitVec.extractLsb'_toNat, Nat.shiftRight_eq_div_pow, configWord_toNat]

/-- The six fields of CONFIG, from bit 0 up (R32). -/
theorem configWord_fields (b : Build) :
    (configWord b).extractLsb' 0 6 = BitVec.ofNat 6 b.radix.bits ∧
    (configWord b).extractLsb' 6 2 = 0#2 ∧ (configWord b).extractLsb' 8 5 = b.assertMask ∧
    (configWord b).extractLsb' 13 3 = 0#3 ∧ (configWord b).extractLsb' 16 8 = configVersion ∧
    (configWord b).extractLsb' 24 8 = 0#8 := by
  have hbits := bits_le b.radix
  have hmask := b.assertMask.isLt
  simp only [← BitVec.toNat_inj, toNat_configWord_field, configVersion, BitVec.toNat_ofNat]
  omega

/-! ## Reserved opcodes -/

/-- A reserved opcode has the rule of R131. -/
theorem operation_of_isReserved {i : Instr} (hi : isReserved (opcodeOf i) = true) (b : Build) (st : FlagSet) :
    operation b st i = illegalResult := by
  cases i with
  | illegal0 | illegal7 | illegal8 | illegal9 | illegalA | illegalB | illegalF => rfl
  | mul | recip | sqrt | floor | ceil | trunc | rdst | clrst | rdcfg => cases hi

/-- ILL is selected by bit 4 of ASSERT_MASK (R10, R27). -/
theorem selects_flagILL (mask : FlagSet) : selects mask flagILL = mask.getLsbD 4 := by
  obtain ⟨-, -, -, -, hill⟩ := getLsbD_eq_and_flag mask
  rw [selects, BitVec.and_comm, hill]

/-- A request whose rule answers `f` and clears nothing stops the unit when `f` is selected (R146). -/
theorem exec_stopsWith {i : Instr} {v : Word} {f : FlagSet} {s : State} (hf : s.fault = false)
    (h : operation s.build s.status i = { value := v, flags := f }) (hs : selects s.build.assertMask f = true) :
    exec i s = .next (stopsWith s f) := by
  rw [exec_eq_commit, h, commit_selected hf hs, raiseFault, accumulate_clear_nothing]
  rfl

/-- A reserved opcode reads no operand (R61, R66). -/
theorem formatOf_of_isReserved {op : BitVec 4} (h : isReserved op = true) : formatOf op = .N := by
  revert op; decide

/-- `.illegal` assembles to its opcode with every ignored bit 0 (R70, R131). -/
theorem assemble_illegal {op : BitVec 4} (h : isReserved op = true) (r : Radix) :
    assemble r (.illegal op) = some (requestWord op 0#32 0#32) := by
  rw [assemble, lineInstr, reservedInstr, if_pos h, Option.map_some, encode_decode, canonicalWord_requestWord,
    formatOf_of_isReserved h]

/-! ## The idle unit -/

/-- A running unit without pins to come waits (log entry 4). -/
theorem step_of_no_pins {s : State} (hi : s.inputs = []) (hf : s.fault = false) : step s = .next s := by
  simp [step_eq_edge, hi, hf]

/-- An edge without reset and request, on a running unit with both ports empty, only consumes the pins (R136). -/
theorem step_of_idle {s : State} {e : Sample} {rest : List Sample} (hi : s.inputs = e :: rest) (hr : e.rst = false)
    (hf : s.fault = false) (hh : s.held = none) (hp : s.rsp = none) (hq : e.req = none) :
    step s = .next { s with inputs := rest } := by
  have hk : keepsRequest s.toUnitState e = true := keepsRequest_iff.mpr (.inl hh)
  simp [step_eq_edge, hi, hr, hf, hk, hp, hq, hh]

/-! ## The obligations -/

/-- Settles O34: RDST leaves FAULT and STATUS, so a second one answers the same. -/
theorem rdstReadsStatus : Obligations.RdstReadsStatus := by
  intro a b s hf
  obtain ⟨-, -, -, -, -, -, -, -, -, -, -, -, hdecode, -⟩ := decodeFollowsTheOpcodeMap.2 a b
  refine ⟨hdecode, rfl, exec_rdst hf, toNat_flagImage s.status, fun t ht => ?_, by decide⟩
  cases (exec_rdst hf).symm.trans ht
  exact ⟨_, exec_rdst hf, rfl, rfl⟩

/-- Settles O35. -/
theorem clrstReadsThenClears : Obligations.ClrstReadsThenClears := by
  intro a b m s hf
  obtain ⟨-, -, -, -, -, -, -, -, -, -, -, -, -, hdecode, -⟩ := decodeFollowsTheOpcodeMap.2 a b
  exact ⟨hdecode, ⟨_, exec_clrst hf m, rfl, fun k hk => getLsbD_and_not hk s.status m⟩, exec_clrst_no_mask s, rfl⟩

/-- Settles O36: RADIX in bits 5:0 is 16 or 12. -/
theorem rdcfgReadsTheBuild : Obligations.RdcfgReadsTheBuild := by
  intro a b s hf
  obtain ⟨-, -, -, -, -, -, -, -, -, -, -, -, -, -, hdecode, -⟩ := decodeFollowsTheOpcodeMap.2 a b
  obtain ⟨hradix, hlow, hmask, hmiddle, hversion, hhigh⟩ := configWord_fields s.build
  refine ⟨hdecode, rfl, exec_rdcfg hf, hradix.trans ?_, hlow, hmask, hmiddle, hversion, hhigh, rfl, rfl, rfl⟩
  cases s.build.radix <;> rfl

/-- Settles O37: the seven opcodes have one rule, answered or stopping the unit by bit 4 of ASSERT_MASK. -/
theorem reservedOpcodesAnswerZeroWithIll : Obligations.ReservedOpcodesAnswerZeroWithIll := by
  refine ⟨fun a b => ?_, fun s hf hill => ?_, fun i s hf hill hi => ?_, rfl, fun r op h => assemble_illegal h r⟩
  · obtain ⟨h0, -, -, -, -, -, -, h7, h8, h9, hA, hB, -, -, -, hF⟩ := decodeFollowsTheOpcodeMap.2 a b
    exact ⟨h0, h7, h8, h9, hA, hB, hF⟩
  · have hanswer (i : Instr) (hi : isReserved (opcodeOf i) = true) :
        exec i s = .next (answersWith s 0x00000000#32 0b10000#5) :=
      exec_of_operation_eq hf (operation_of_isReserved hi _ _) ((selects_flagILL _).trans hill)
    exact ⟨hanswer .illegal0 rfl, hanswer .illegal7 rfl, hanswer .illegal8 rfl, hanswer .illegal9 rfl,
      hanswer .illegalA rfl, hanswer .illegalB rfl, hanswer .illegalF rfl⟩
  · exact exec_stopsWith hf (operation_of_isReserved hi _ _) ((selects_flagILL _).trans hill)

/-- Settles O55. -/
theorem idleUnitWaits : Obligations.IdleUnitWaits :=
  fun _ hf => ⟨fun hi => step_of_no_pins hi hf, fun _ _ hp hh hi => step_of_idle hi rfl hf hh hp rfl⟩

end Sys2Proof.Machine

end

-- The flags of every operation and the fault (spec/60_exceptions.md): each flag by its condition, what a selected flag does to
-- the unit, and the obligations on R141, R145, R146, R147, R148 and R158.
section

namespace Sys2Proof.Machine

/-! ## The table of R141 -/

theorem mulResult_flags (r : Radix) (a b : Word) :
    (mulResult r a b).flags = if maxMag < mag a * mag b / 2 ^ r.bits then flagOVF else
      if mag a * mag b / 2 ^ r.bits = 0 ∧ 0 < mag a * mag b then flagUNF else 0#5 := by
  rw [mulResult_eq_signedProduct]
  rfl

theorem mag_mul_mag_pos_iff {a b : Word} : 0 < mag a * mag b ↔ a ≠ zeroWord ∧ b ≠ zeroWord := by
  rw [Nat.pos_iff_ne_zero, Ne, mag_mul_mag_eq_zero_iff, not_or]

/-- UNF is raised exactly when the product of two operands other than zero loses all its bits (R83). -/
theorem mulResult_flags_eq_flagUNF_iff {r : Radix} {a b : Word} :
    (mulResult r a b).flags = flagUNF ↔ a ≠ zeroWord ∧ b ≠ zeroWord ∧ mag a * mag b / 2 ^ r.bits = 0 := by
  rw [← and_assoc, ← mag_mul_mag_pos_iff, and_comm, mulResult_flags]
  split_ifs with hovf hunf
  · exact iff_of_false (by decide) fun hunf => by simp [hunf] at hovf
  · exact iff_of_true rfl hunf
  · exact iff_of_false (by decide) hunf

theorem mulResult_flags_mem (r : Radix) (a b : Word) : (mulResult r a b).flags ∈ [0#5, flagOVF, flagUNF] := by
  rw [mulResult_flags]
  split_ifs <;> simp

/-- The value beside OVF (R83, R141). -/
theorem mulResult_value_of_flagOVF {r : Radix} {a b : Word} (h : (mulResult r a b).flags = flagOVF) :
    (mulResult r a b).value = sat (sgn a ^^ sgn b) := by
  rw [mulResult_eq_signedProduct, signedProduct_of_overflow _ (mulResult_flags_eq_flagOVF_iff.mp h)]

/-- OVF by the magnitude of the operand (R93). -/
theorem recipResult_flags_eq_flagOVF_iff_mag {r : Radix} {x : Word} :
    (recipResult r x).flags = flagOVF ↔ r = .r16 ∧ (mag x = 1 ∨ mag x = 2) := by
  have hne : r = .r16 ∧ (mag x = 1 ∨ mag x = 2) → x ≠ zeroWord := fun h => (mag_pos_iff x).mp (by omega)
  rw [recipResult_flags_eq_flagOVF_iff, maxMag_lt_quotient_iff, and_iff_right_of_imp hne]

/-- UNF by the magnitude of the operand (R93). -/
theorem recipResult_flags_eq_flagUNF_iff_mag {r : Radix} {x : Word} :
    (recipResult r x).flags = flagUNF ↔ r = .r12 ∧ 2 ^ 24 < mag x := by
  have hne : r = .r12 ∧ 2 ^ 24 < mag x → x ≠ zeroWord := fun h => (mag_pos_iff x).mp (by omega)
  rw [recipResult_flags_eq_flagUNF_iff, and_congr_right quotient_eq_zero_iff, and_iff_right_of_imp hne]

theorem recipResult_flags_mem (r : Radix) (x : Word) : (recipResult r x).flags ∈ [0#5, flagOVF, flagUNF, flagDZ] := by
  obtain h | h | h | h := recipResult_flags_cases r x <;> simp [h]

/-- The value beside OVF (R92, R141). -/
theorem recipResult_value_of_flagOVF {r : Radix} {x : Word} (h : (recipResult r x).flags = flagOVF) :
    (recipResult r x).value = sat (sgn x) := by
  obtain ⟨h0, hq⟩ := recipResult_flags_eq_flagOVF_iff.mp h
  rw [recipResult_of_overflow h0 hq]

theorem sqrtResult_flags (r : Radix) (x : Word) : (sqrtResult r x).flags = if sgn x then flagINV else 0#5 := by
  rw [sqrtResult, apply_ite OpResult.flags]

/-- INV is raised exactly for a negative operand (R103). -/
theorem sqrtResult_flags_eq_flagINV_iff {r : Radix} {x : Word} : (sqrtResult r x).flags = flagINV ↔ sgn x = true := by
  rw [sqrtResult_flags]
  cases sgn x <;> decide

theorem sqrtResult_flags_mem (r : Radix) (x : Word) : (sqrtResult r x).flags ∈ [0#5, flagINV] := by
  rw [sqrtResult_flags]
  split_ifs <;> simp

/-- OVF is raised exactly above MAXINT (R115). -/
theorem ceilResult_flags_eq_flagOVF_iff_maxInt {r : Radix} {x : Word} :
    (ceilResult r x).flags = flagOVF ↔ sint (maxIntWord r) < sint x :=
  ceilResult_flags_eq_flagOVF_iff.trans maxMag_lt_ceilSum_iff

theorem ceilResult_flags_mem (r : Radix) (x : Word) : (ceilResult r x).flags ∈ [0#5, flagOVF] := by
  rw [ceilResult, apply_ite OpResult.flags]
  split_ifs <;> simp

/-- The value beside OVF (R115, R141). -/
theorem ceilResult_value_of_flagOVF {r : Radix} {x : Word} (h : (ceilResult r x).flags = flagOVF) :
    (ceilResult r x).value = maxMagWord := by
  rw [ceilResult_of_overflow (ceilResult_flags_eq_flagOVF_iff.mp h)]

/-- The operations of the map of R64 other than the reserved opcodes raise at most one of OVF, UNF, DZ and INV (R141). -/
theorem operation_flags_ne_flagILL {i : Instr} (hi : isReserved (opcodeOf i) = false) (b : Build) (st : FlagSet) :
    (operation b st i).flags ≠ flagILL := by
  cases i with
  | mul x y => exact ne_of_mem_of_not_mem (mulResult_flags_mem b.radix x y) (by decide)
  | recip x => exact ne_of_mem_of_not_mem (recipResult_flags_mem b.radix x) (by decide)
  | sqrt x => exact ne_of_mem_of_not_mem (sqrtResult_flags_mem b.radix x) (by decide)
  | ceil x => exact ne_of_mem_of_not_mem (ceilResult_flags_mem b.radix x) (by decide)
  | floor | trunc | rdst | clrst | rdcfg => exact (by decide : (0#5 : FlagSet) ≠ flagILL)
  | illegal0 | illegal7 | illegal8 | illegal9 | illegalA | illegalB | illegalF => cases hi

/-- ILL is raised exactly by the reserved opcodes (R131, R141). -/
theorem operation_flags_eq_flagILL_iff {b : Build} {st : FlagSet} {i : Instr} :
    (operation b st i).flags = flagILL ↔ isReserved (opcodeOf i) = true := by
  constructor
  · intro h
    by_contra hi
    exact operation_flags_ne_flagILL (Bool.eq_false_of_not_eq_true hi) b st h
  · intro hi
    rw [operation_of_isReserved hi]
    rfl

/-! ## Entering the fault -/

/-- A request that raises a flag is no CLRST, so it clears nothing (R17, R128). -/
theorem operation_clr_of_selects {b : Build} {st : FlagSet} {i : Instr} {mask : FlagSet}
    (hs : selects mask (operation b st i).flags = true) : (operation b st i).clr = 0#5 := by
  refine operation_clr ?_ b st
  rintro m rfl
  exact absurd ((selects_no_flag mask).symm.trans hs) Bool.false_ne_true

/-- A request that raises a selected flag stops the unit with it, whatever the value of its rule (R146). -/
theorem exec_stopsWith_of_flags {i : Instr} {f : FlagSet} {s : State} (hf : s.fault = false)
    (h : (operation s.build s.status i).flags = f) (hs : selects s.build.assertMask f = true) :
    exec i s = .next (stopsWith s f) := by
  subst h
  exact exec_stopsWith hf (congrArg (OpResult.mk _ _) (operation_clr_of_selects hs)) hs

/-- Only a running unit that offers no response accepts a request (R40, R44, R147). -/
theorem ready_of_accepts {s : State} {w : RequestWord} (h : accepts s = some w) : s.rsp = none ∧ s.fault = false := by
  constructor
  · cases hp : s.rsp with
    | none => rfl
    | some r => cases (accepts_of_busy hp).symm.trans h
  · cases hf : s.fault with
    | false => rfl
    | true => cases (accepts_of_stopped hf).symm.trans h

/-- A unit that offers no response shows none (R41). -/
theorem rspValid_of_no_rsp {s : State} (hp : s.rsp = none) : rspValid s = false := by
  simp [rspValid, hp]

/-! ## The debug build -/

/-- Of the flag sets that a request can raise, the mask `0b00011` selects OVF and UNF and no other (R28, R148). -/
theorem eq_of_debug_selects {f : FlagSet} (hone : isZeroOrOneHot f = true) (hs : selects 0b00011#5 f = true) :
    f = flagOVF ∨ f = flagUNF := by
  revert f; decide

/-- OVF and UNF come from MUL, from RECIP of a value other than zero, and from CEIL alone (R141). -/
theorem source_of_overflow_or_underflow {b : Build} {st : FlagSet} {i : Instr}
    (h : (operation b st i).flags = flagOVF ∨ (operation b st i).flags = flagUNF) :
    (∃ x y : Word, i = .mul x y) ∨ (∃ x : Word, x ≠ zeroWord ∧ i = .recip x) ∨ (∃ x : Word, i = .ceil x) := by
  cases i with
  | mul x y => exact .inl ⟨x, y, rfl⟩
  | ceil x => exact .inr (.inr ⟨x, rfl⟩)
  | recip x =>
    have h0 : x ≠ zeroWord := h.elim (fun hovf => (recipResult_flags_eq_flagOVF_iff.mp hovf).1)
      (fun hunf => (recipResult_flags_eq_flagUNF_iff.mp hunf).1)
    exact .inr (.inl ⟨x, h0, rfl⟩)
  | sqrt x =>
    have hmem : (operation b st (.sqrt x)).flags ∈ [0#5, flagINV] := sqrtResult_flags_mem b.radix x
    obtain h | h := h <;> rw [h] at hmem <;> exact absurd hmem (by decide)
  | floor | trunc | rdst | clrst | rdcfg =>
    exact absurd h (show ¬((0#5 : FlagSet) = flagOVF ∨ (0#5 : FlagSet) = flagUNF) by decide)
  | illegal0 | illegal7 | illegal8 | illegal9 | illegalA | illegalB | illegalF =>
    exact absurd h (show ¬(flagILL = flagOVF ∨ flagILL = flagUNF) by decide)

/-- At each radix RECIP of some operand raises a flag of the debug build: OVF at the smallest magnitude of radix 16, UNF at the
largest of radix 12 (R93, R148). -/
theorem exists_recipResult_flags (r : Radix) :
    ∃ x : Word, (recipResult r x).flags = if r = .r16 then flagOVF else flagUNF := by
  cases r
  · exact ⟨1#32, by decide⟩
  · exact ⟨minPat, by decide⟩

/-! ## The optimized build -/

/-- An optimized build selects nothing (R145). -/
theorem selects_of_optimized {b : Build} (hb : optimized b = true) (f : FlagSet) : selects b.assertMask f = false := by
  have hm : b.assertMask = 0#5 := by simpa [optimized] using hb
  rw [hm, selects_with_no_mask]

/-- On an optimized build each transaction has a response and leaves FAULT as it is (R145). -/
theorem transact_answers_of_optimized {b : Build} (hb : optimized b = true) (g : Registers) (w : RequestWord) :
    (transact b g w).1.fault = g.fault ∧ (transact b g w).2.isSome = true := by
  have hnone := selects_false_iff.mp (selects_of_optimized hb (operation b g.status (decode w)).flags)
  simp [transact, hnone]

/-- On an optimized build a request sequence of any length is answered to its end (R145, R158). -/
theorem transactAll_answers_of_optimized {b : Build} (hb : optimized b = true) {g : Registers} (hf : g.fault = false)
    (ws : List RequestWord) :
    (transactAll b g ws).1.fault = false ∧ (transactAll b g ws).2.length = ws.length ∧
      ∀ o ∈ (transactAll b g ws).2, o.isSome = true := by
  induction ws generalizing g with
  | nil => simp [hf]
  | cons w ws ih =>
    obtain ⟨hkeep, hanswer⟩ := transact_answers_of_optimized hb g w
    obtain ⟨hrun, hlength, hall⟩ := ih (hkeep.trans hf)
    rw [transactAll_cons hf]
    exact ⟨hrun, congrArg Nat.succ hlength, List.forall_mem_cons.mpr ⟨hanswer, hall⟩⟩

/-! ## The stopped unit -/

/-- An edge of a stopped unit before a reset that is still to come consumes the pins alone (R147; log entry 6). -/
theorem step_of_stoppedWait {s : State} {e : Sample} {rest : List Sample} (hi : s.inputs = e :: rest)
    (hr : e.rst = false) (hf : s.fault = true) (hc : resetToCome rest = true) : step s = .next { s with inputs := rest } := by
  simp [step_eq_edge, hi, hr, hf, hc]

/-- A stopped unit in a good state offers no response (R146). -/
theorem rsp_of_good_stopped {s : State} (hf : s.fault = true) (hg : s.good = true) : s.rsp = none := by
  obtain ⟨-, -, -, hp⟩ := (good_iff_of_stopped hf).mp hg
  exact hp

/-! ## The obligations -/

/-- Settles O40, row by row of the table of R141. -/
theorem eachConditionRaisesItsFlag : Obligations.EachConditionRaisesItsFlag := by
  intro b st x y m F
  refine ⟨mulResult_flags_eq_flagOVF_iff, mulResult_flags_eq_flagUNF_iff, recipResult_flags_eq_flagOVF_iff,
    recipResult_flags_eq_flagOVF_iff_mag, recipResult_flags_eq_flagUNF_iff, recipResult_flags_eq_flagUNF_iff_mag,
    recipResult_flags_eq_flagDZ_iff, sqrtResult_flags_eq_flagINV_iff, ceilResult_flags_eq_flagOVF_iff_maxInt,
    mulResult_value_of_flagOVF, recipResult_value_of_flagOVF, ceilResult_value_of_flagOVF,
    fun i => operation_flags_eq_flagILL_iff, mulResult_flags_mem _ x y, recipResult_flags_mem _ x, sqrtResult_flags_mem _ x,
    ceilResult_flags_mem _ x, ?_, fun i _ => (operation_flagRow b st i).fallbackOk⟩
  simp only [List.forall_mem_cons]
  exact ⟨rfl, rfl, rfl, rfl, rfl, List.forall_mem_nil _⟩

/-- Settles O41: the next state is `stopsWith`, a stopped unit without a response. -/
theorem selectedFlagEntersTheFault : Obligations.SelectedFlagEntersTheFault := by
  refine ⟨fun s w h => ready_of_accepts h, ?_⟩
  intro i s hf f hsel
  have hs : selects s.build.assertMask f = true := selects_iff.mpr hsel
  exact ⟨exec_stopsWith_of_flags hf rfl hs, (operation_flagRow _ _ i).isOneHot_of_selects hs, rfl, rfl,
    rspValid_of_no_rsp (stopsWith_rsp s f), reqReady_of_stopped (stopsWith_fault s f),
    accepts_of_stopped (stopsWith_fault s f)⟩

/-- Settles O42: each condition raises its flag (R141), and a selected flag stops the unit (R146). -/
theorem eachSelectedConditionStopsTheUnit : Obligations.EachSelectedConditionStopsTheUnit := by
  intro x y s hf F
  have hstop {i : Instr} {f : FlagSet} (hs : selects s.build.assertMask f = true)
      (h : (operation s.build s.status i).flags = f) : exec i s = .next (stopsWith s f) :=
    exec_stopsWith_of_flags hf h hs
  refine ⟨fun hs => ⟨fun hm => ?_, fun h0 hq => ?_, fun hx => ?_⟩, fun hs => ⟨fun hx hy hm => ?_, fun h0 hq => ?_⟩,
    fun hs => ?_, fun hs hneg => ?_⟩
  · exact hstop hs (mulResult_flags_eq_flagOVF_iff.mpr hm)
  · exact hstop hs (recipResult_flags_eq_flagOVF_iff.mpr ⟨h0, hq⟩)
  · exact hstop hs (ceilResult_flags_eq_flagOVF_iff_maxInt.mpr hx)
  · exact hstop hs (mulResult_flags_eq_flagUNF_iff.mpr ⟨hx, hy, hm⟩)
  · exact hstop hs (recipResult_flags_eq_flagUNF_iff.mpr ⟨h0, hq⟩)
  · exact hstop hs (recipResult_flags_eq_flagDZ_iff.mpr rfl)
  · exact hstop hs (sqrtResult_flags_eq_flagINV_iff.mpr hneg)

/-- Settles O43: a request that stops this build raises OVF or UNF; the first four parts name operands that do. -/
theorem debugBuildFaultsOnlyOnOverflowAndUnderflow : Obligations.DebugBuildFaultsOnlyOnOverflowAndUnderflow := by
  intro s hf hm
  have hstop {i : Instr} {f : FlagSet} (hs : selects 0b00011#5 f = true)
      (h : (operation s.build s.status i).flags = f) : exec i s = .next (stopsWith s f) :=
    exec_stopsWith_of_flags hf h (hm ▸ hs)
  refine ⟨⟨minPat, minPat, _, hstop (by decide) ?_, rfl, rfl⟩, ⟨1#32, 1#32, _, hstop (by decide) ?_, rfl, rfl⟩, ?_,
    ⟨maxMagWord, _, hstop (by decide) ?_, rfl, rfl⟩, fun i t h ht => ?_⟩
  · exact mulResult_flags_eq_flagOVF_iff.mpr (by cases s.build.radix <;> decide)
  · exact mulResult_flags_eq_flagUNF_iff.mpr (by cases s.build.radix <;> decide)
  · obtain ⟨x, hx⟩ := exists_recipResult_flags s.build.radix
    exact ⟨x, _, hstop (by split_ifs <;> decide) hx, rfl, rfl⟩
  · exact congrArg OpResult.flags (ceilResult_maxMagWord s.build.radix)
  · have hs := (exec_fault h).symm.trans ht
    rw [hm] at hs
    exact source_of_overflow_or_underflow (eq_of_debug_selects (operation_flagRow _ _ i).isZeroOrOneHot hs)

/-- Settles O47; the sequence of any length is by induction on its requests (`transactAll_answers_of_optimized`). -/
theorem optimizedBuildAnswersEverything : Obligations.OptimizedBuildAnswersEverything := by
  refine ⟨fun i s hf hb => ?_, fun b g ws hb hf => transactAll_answers_of_optimized hb hf ws⟩
  rw [exec_eq_commit, commit_answered hf (selects_of_optimized hb _)]
  exact ⟨_, _, rfl, answer_rsp _ _, hf, answer_fcause _ _⟩

/-- Settles O46. -/
theorem stoppedUnitChangesNothingUntilReset : Obligations.StoppedUnitChangesNothingUntilReset := by
  intro s hf
  refine ⟨step_of_stuck hf, fun i => ?_, reqReady_of_stopped hf, fun hg => rspValid_of_no_rsp (rsp_of_good_stopped hf hg),
    fun e rest hi => ⟨step_reset hi, fun hr hc => step_of_stoppedWait hi hr hf hc⟩⟩
  rw [exec_eq_commit, commit_stopped hf]

end Sys2Proof.Machine

end

-- The reset edge (spec/70_reset_and_hazards.md): the obligation on R161 and R162.
section

namespace Sys2Proof.Machine

/-- Settles O49: of a reset edge the next state knows only the build and the pins still to come (`step_reset`). -/
theorem resetWinsOverEverything : Obligations.ResetWinsOverEverything := by
  intro s s' e e' rest hi hi' hr hr' hb
  have hs : step s = .next (State.resetOf s.build rest) := step_reset hi hr
  have hs' : step s' = .next (State.resetOf s.build rest) := by rw [step_reset hi' hr', hb]
  exact ⟨hs.trans hs'.symm, accepts_of_reset hi hr, hs⟩

end Sys2Proof.Machine

end
